-- ==== Sys2Proof/Word.lean ====
section
/-!
DEFINITION. The universal value types of the block: the 32-bit word of rule R9 and the 8-bit byte of
rule R41.
-/

namespace Sys2Proof

/-- A 32-bit two's-complement word, the width of every value the block computes on (R9). -/
abbrev Word := BitVec 32

/-- One byte of a word or of a text (R41, R44). -/
abbrev Byte := BitVec 8

end Sys2Proof
end

