-- ==== Sys2Proof/Config.lean ====
section
/-!
DEFINITION. The one parameter the spec leaves OPEN (R10): the capacity of the text input.
-/

namespace Sys2Proof

/-- How far the text input's capacity exceeds the least one R10 allows. It has no body: no proof can
see a value of it, so a claim holds for every TIN_MAX the spec admits. DESIGN CHOICE, safe; log 5. -/
opaque Config.tinSlack : Nat

/-- TIN_MAX, the capacity of the text input in bytes (R10): any number that is at least 32. -/
def Config.tinMax : Nat := Config.tinSlack + 32

end Sys2Proof
end

