-- ==== Sys2Proof/Syntax.lean ====
section
/-!
DEFINITION. The command tuple as the host presents it (R60) and the twenty operations of the opcode
map (R63), each with the operands its row names, in the source's argument order (R64).
-/

namespace Sys2Proof

/-- What the host presents for one command: the command word, the four operand inputs and the text
input (R24, R25, R26, R60). TLEN is the length of `tin`; log 6. -/
structure Command where
  cmd : Word
  a : Word
  b : Word
  c : Word
  d : Word
  tin : List Byte
deriving DecidableEq, Repr

/-- TLEN, the number of bytes of the text input (R26). -/
def Command.tlen (c : Command) : Nat := c.tin.length

/-- The operations of R63 with their operands. A text operand lists its characters first character
first (R42). The decoder reads the whole command tuple; log 13. -/
inductive Instr where
  | ddec (txt : List Byte)
  | dbin (txt : List Byte)
  | dhex (txt : List Byte)
  | ebin (n : Word)
  | ehex (n : Word)
  | setbyte (word byteValue index : Word)
  | getnib (word index : Word)
  | pack (b3 b2 b1 b0 : Word)
  | bitrange (num start len : Word)
  | xor (a b : Word)
  | pow2 (n : Word)
  | bset (idx : Word)
  | bclr (idx : Word)
  | btgl (idx : Word)
  | bisset (idx : Word)
  | bisclr (idx : Word)
  | bstr
  | bones
  | bzeros
  | bsize
deriving DecidableEq, Repr

/-- The three units of R1; the popcount_unit is a part of the bitvector_register. -/
inductive CoreUnit where
  | radixConverter
  | bitPacker
  | bitvectorRegister
deriving DecidableEq, Repr

/-- The unit that runs an operation (R63, column "unit"). -/
def Instr.coreUnit : Instr → CoreUnit
  | .ddec _ => .radixConverter
  | .dbin _ => .radixConverter
  | .dhex _ => .radixConverter
  | .ebin _ => .radixConverter
  | .ehex _ => .radixConverter
  | .setbyte _ _ _ => .bitPacker
  | .getnib _ _ => .bitPacker
  | .pack _ _ _ _ => .bitPacker
  | .bitrange _ _ _ => .bitPacker
  | .xor _ _ => .bitPacker
  | .pow2 _ => .bitPacker
  | .bset _ => .bitvectorRegister
  | .bclr _ => .bitvectorRegister
  | .btgl _ => .bitvectorRegister
  | .bisset _ => .bitvectorRegister
  | .bisclr _ => .bitvectorRegister
  | .bstr => .bitvectorRegister
  | .bones => .bitvectorRegister
  | .bzeros => .bitvectorRegister
  | .bsize => .bitvectorRegister

end Sys2Proof
end

