-- ==== Sys2Proof/WellFormed.lean ====
section
/-!
DEFINITION. Well-formed commands and operations. Operand words have no illegal pattern (R24), so the
only check is R26's: the length of a text input is an integer in [0, TIN_MAX]. The machine does not
rely on it: an over-long text runs too and ends DOMAIN (R10, R101).
-/

namespace Sys2Proof

/-- R26: TLEN lies in [0, TIN_MAX]. -/
abbrev textFits (txt : List Byte) : Prop := txt.length ≤ Config.tinMax

/-- A command tuple the text input can carry (R26, R60). -/
abbrev Command.WellFormed (c : Command) : Prop := textFits c.tin

/-- An operation whose text operand, if it has one, fits the text input (R26). -/
abbrev Instr.WellFormed : Instr → Prop
  | .ddec txt => textFits txt
  | .dbin txt => textFits txt
  | .dhex txt => textFits txt
  | .ebin _ => True
  | .ehex _ => True
  | .setbyte _ _ _ => True
  | .getnib _ _ => True
  | .pack _ _ _ _ => True
  | .bitrange _ _ _ => True
  | .xor _ _ => True
  | .pow2 _ => True
  | .bset _ => True
  | .bclr _ => True
  | .btgl _ => True
  | .bisset _ => True
  | .bisclr _ => True
  | .bstr => True
  | .bones => True
  | .bzeros => True
  | .bsize => True

end Sys2Proof
end

