-- ==== Sys2Proof/Decode.lean ====
section
/-!
DEFINITION. Decoding of a command tuple (R61 to R67), total and rejecting by name, and the encoder that
lays an operation out as R72 says. The opcode numbers are those of R63.
-/

namespace Sys2Proof

/-- Why a command word selects no operation (R66). Both end the command with status ILLEGAL (R171);
the block records no difference between them. -/
inductive DecodeError where
  /-- CMD[31:8] is not 0 (R61). -/
  | reservedBits
  /-- CMD[7:0] is an operation code that the map of R63 does not define. -/
  | undefinedOpcode
deriving DecidableEq, Repr

/-- OP = CMD[7:0] (R61). -/
def opField (cmd : Word) : Byte := cmd.extractLsb' 0 8

/-- RSV = CMD[31:8] (R61). -/
def rsvField (cmd : Word) : BitVec 24 := cmd.extractLsb' 8 24

/-- The case table of R67, with each operation's operands taken from the inputs R63 names (R64). The
inputs a row does not name are not read (R65). -/
def decodeOp (op : Byte) (c : Command) : Except DecodeError Instr :=
  match op.toNat with
  | 0x01 => .ok (.ddec c.tin)
  | 0x02 => .ok (.dbin c.tin)
  | 0x03 => .ok (.dhex c.tin)
  | 0x04 => .ok (.ebin c.a)
  | 0x05 => .ok (.ehex c.a)
  | 0x10 => .ok (.setbyte c.a c.b c.c)
  | 0x11 => .ok (.getnib c.a c.b)
  | 0x12 => .ok (.pack c.a c.b c.c c.d)
  | 0x13 => .ok (.bitrange c.a c.b c.c)
  | 0x14 => .ok (.xor c.a c.b)
  | 0x15 => .ok (.pow2 c.a)
  | 0x20 => .ok (.bset c.a)
  | 0x21 => .ok (.bclr c.a)
  | 0x22 => .ok (.btgl c.a)
  | 0x23 => .ok (.bisset c.a)
  | 0x24 => .ok (.bisclr c.a)
  | 0x25 => .ok .bstr
  | 0x26 => .ok .bones
  | 0x27 => .ok .bzeros
  | 0x28 => .ok .bsize
  | _ => .error .undefinedOpcode

/-- R67: decoding is total on every command word. -/
def decode (c : Command) : Except DecodeError Instr :=
  if rsvField c.cmd ≠ 0 then .error .reservedBits else decodeOp (opField c.cmd) c

/-- The operation code of an operation (R63, column "OP"). -/
def opcode : Instr → Byte
  | .ddec _ => 0x01
  | .dbin _ => 0x02
  | .dhex _ => 0x03
  | .ebin _ => 0x04
  | .ehex _ => 0x05
  | .setbyte _ _ _ => 0x10
  | .getnib _ _ => 0x11
  | .pack _ _ _ _ => 0x12
  | .bitrange _ _ _ => 0x13
  | .xor _ _ => 0x14
  | .pow2 _ => 0x15
  | .bset _ => 0x20
  | .bclr _ => 0x21
  | .btgl _ => 0x22
  | .bisset _ => 0x23
  | .bisclr _ => 0x24
  | .bstr => 0x25
  | .bones => 0x26
  | .bzeros => 0x27
  | .bsize => 0x28

/-- R72: `CMD = zext_32(OP)`, the operands in order, every input not given 0, TLEN = 0 without a text. -/
def encodeWith (op : Byte) (a b c d : Word) (tin : List Byte) : Command :=
  { cmd := op.setWidth 32, a := a, b := b, c := c, d := d, tin := tin }

/-- The command tuple of an operation (R63, R64, R72). -/
def encode (i : Instr) : Command :=
  match i with
  | .ddec txt => encodeWith (opcode i) 0 0 0 0 txt
  | .dbin txt => encodeWith (opcode i) 0 0 0 0 txt
  | .dhex txt => encodeWith (opcode i) 0 0 0 0 txt
  | .ebin n => encodeWith (opcode i) n 0 0 0 []
  | .ehex n => encodeWith (opcode i) n 0 0 0 []
  | .setbyte word byteValue index => encodeWith (opcode i) word byteValue index 0 []
  | .getnib word index => encodeWith (opcode i) word index 0 0 []
  | .pack b3 b2 b1 b0 => encodeWith (opcode i) b3 b2 b1 b0 []
  | .bitrange num start len => encodeWith (opcode i) num start len 0 []
  | .xor a b => encodeWith (opcode i) a b 0 0 []
  | .pow2 n => encodeWith (opcode i) n 0 0 0 []
  | .bset idx => encodeWith (opcode i) idx 0 0 0 []
  | .bclr idx => encodeWith (opcode i) idx 0 0 0 []
  | .btgl idx => encodeWith (opcode i) idx 0 0 0 []
  | .bisset idx => encodeWith (opcode i) idx 0 0 0 []
  | .bisclr idx => encodeWith (opcode i) idx 0 0 0 []
  | .bstr => encodeWith (opcode i) 0 0 0 0 []
  | .bones => encodeWith (opcode i) 0 0 0 0 []
  | .bzeros => encodeWith (opcode i) 0 0 0 0 []
  | .bsize => encodeWith (opcode i) 0 0 0 0 []

/-- The command whose lowest `nbits` bits are those of `w` and whose other bits are 0: CMD is the
lowest word, then A, B, C, D in that order, and no text (the table gives a row the 32 bits of CMD
only). DESIGN CHOICE, safe; log 11. -/
def commandOfBits (nbits w : Nat) : Command :=
  let v := w % 2 ^ nbits
  { cmd := BitVec.ofNat 32 v
    a := BitVec.ofNat 32 (v >>> 32)
    b := BitVec.ofNat 32 (v >>> 64)
    c := BitVec.ofNat 32 (v >>> 96)
    d := BitVec.ofNat 32 (v >>> 128)
    tin := [] }

/-- The operation the decoder reads from a row's bits of spec/opcode_table.json. -/
def decodeTableWord (nbits w : Nat) : Option Instr :=
  match decode (commandOfBits nbits w) with
  | .ok i => some i
  | .error _ => none

end Sys2Proof
end

