-- ==== Sys2Proof/Machine/State.lean ====
section
/-!
DEFINITION. The machine's state as plain data: the architectural state of R20, and beside it the host's
list of events with its index (R33, R191) and whether the first reset has happened (R37, R192).
-/

namespace Sys2Proof.Machine

/-- What the host does to the block, one event at a time: it presents a command (R60) or asserts RST
between commands (R190, R191). -/
inductive HostEvent where
  | command (c : Command)
  | reset
deriving DecidableEq, Repr

/-- Everything the machine holds. `bv` to `rErr` are the architectural state, exactly R20's list;
`program`, `k` and `wasReset` stand beside it and no command reads or writes them (log 2, log 4). -/
structure State where
  /-- BV, the bitvector_register (R21). -/
  bv : Word
  /-- R_RES, the word result of the last command (R27). -/
  rRes : Word
  /-- R_FLAG, the Boolean result of the last command, true for 1 (R28, log 7). -/
  rFlag : Bool
  /-- R_TXT, the text result of the last command, first character first (R29). -/
  rTxt : List Byte
  /-- R_STATUS, the outcome of the last command (R30). -/
  rStatus : BitVec 2
  /-- R_ERR, the sticky error register: bit 0 ILLEGAL_SEEN, bit 1 DOMAIN_SEEN (R31). -/
  rErr : BitVec 2
  /-- Whether a reset has happened since power-up. While it is false the fields above are not the
  block's: its state elements hold no value then, and no step reads them (R37, R192, log 4). -/
  wasReset : Bool
  /-- The finite list of events the host presents, in its order (R33, R52, log 2). -/
  program : List HostEvent
  /-- The index of the next event of `program` (R33). -/
  k : Nat
deriving DecidableEq, Repr

/-- R_TLEN, the length of R_TXT (R29, log 6). -/
def State.rTlen (s : State) : Nat := s.rTxt.length

/-- The fault outcomes with which R178 asks a model to present a command that did not end OK. No
meaning and not `step` answers with one: a failed command is a NEXT state with R173's effect, and the
block goes on (R176). `Safety.checkedStep` presents that same step as R178 says. Safe: a claim about
`checkedStep` stops where a command failed. Log 1. -/
inductive Fault where
  /-- Raised by `Safety.checkedStep` after a command with status ILLEGAL (R171, R178). Safe. -/
  | illegal
  /-- Raised by `Safety.checkedStep` after a command with status DOMAIN (R172, R178). Safe. -/
  | domain
deriving DecidableEq, Repr

/-- The reasons for which a step is not modelled. -/
inductive Refusal where
  /-- An arm of `exec` without a meaning. No arm answers with it: all twenty commands are modelled.
  Safe. -/
  | notModelled (mnemonic : String)
  /-- Raised by `takeCommand` for a command presented before the first reset, which "has no defined
  result; a model gives it no step" (R192). Safe. -/
  | commandBeforeReset
deriving DecidableEq, Repr

/-- The machine right after reset (R190, R194), with nothing presented yet: the host loads `program`
from outside (log 2). -/
def State.reset : State :=
  { bv := 0x00000000
    rRes := 0x00000000
    rFlag := false
    rTxt := []
    rStatus := 0
    rErr := 0b00
    wasReset := true
    program := []
    k := 0 }

end Sys2Proof.Machine
end

