-- ==== Sys2Proof/Machine/Flags.lean ====
section
/-!
DEFINITION. The status codes (R170), the sticky error bits (R175) and the computations behind R_FLAG
(R126, R144, R145).
-/

namespace Sys2Proof.Machine

/-- The three outcomes of a command (R170). Code 3 is reserved, so nothing stands for it. -/
inductive Status where
  | ok
  | illegal
  | domain
deriving DecidableEq, Repr

/-- The code written to R_STATUS (R170). -/
def statusCode : Status → BitVec 2
  | .ok => 0
  | .illegal => 1
  | .domain => 2

/-- The bit of R_ERR that a status sets: ILLEGAL_SEEN is bit 0, DOMAIN_SEEN is bit 1, and OK sets none
(R31, R175). -/
def errBits : Status → BitVec 2
  | .ok => 0b00
  | .illegal => 0b01
  | .domain => 0b10

/-- R_ERR after a command with status `st` (R175): bits are set and never cleared. -/
def errAfter (err : BitVec 2) (st : Status) : BitVec 2 := err ||| errBits st

/-- POW2's flag (R126): `(sint(A) >= 1) and ((A & (A - 1)) == 0)`. -/
def powerOfTwoFlag (a : Word) : Bool := decide (1 ≤ a.toInt) && (a &&& (a - 1)) == 0

/-- BISSET's flag for an index that is not negative (R144): an index of 32 or more is always clear. -/
def isSetFlag (bv : Word) (i : Nat) : Bool := if 32 ≤ i then false else bv.getLsbD i

/-- BISCLR's flag for an index that is not negative (R145): an index of 32 or more is always clear. -/
def isClearFlag (bv : Word) (i : Nat) : Bool := if 32 ≤ i then true else !bv.getLsbD i

end Sys2Proof.Machine
end

