-- ==== Sys2Proof/Machine/Operands.lean ====
section
/-!
DEFINITION. How a command reads its operands (R64): signed indices and their domain checks, the byte and
nibble views of a word (R44, R45), the digits of a numeral string (R100) and its domain check (R101).
-/

namespace Sys2Proof.Machine

/-- `sint(w)`: the signed value of a word under two's complement (R14). -/
def sint (w : Word) : Int := w.toInt

/-- `trunc_8(w)`: the low byte of a word (R16). -/
def trunc8 (w : Word) : Byte := w.extractLsb' 0 8

/-- Byte k of a word, `w[8k+7 : 8k]` (R44). -/
def byteView (w : Word) (k : Nat) : Byte := w.extractLsb' (8 * k) 8

/-- Nibble k of a word, `w[4k+3 : 4k]` (R45). -/
def nibbleView (w : Word) (k : Nat) : BitVec 4 := w.extractLsb' (4 * k) 4

/-- An index operand, read as a signed integer (R64), where it lies in [0, hi]; none is the domain
failure. -/
def indexUpTo (hi : Int) (w : Word) : Option Nat :=
  if 0 ≤ sint w ∧ sint w ≤ hi then some (sint w).toNat else none

/-- SETBYTE's byte index, in [0, 3] (R121). -/
def byteIndex (w : Word) : Option Nat := indexUpTo 3 w

/-- GETNIB's nibble index, in [0, 7] (R122). -/
def nibbleIndex (w : Word) : Option Nat := indexUpTo 7 w

/-- The mutators' bit index, in [0, 31] (R140). -/
def mutatorIndex (w : Word) : Option Nat := indexUpTo 31 w

/-- The queries' bit index: any integer that is not negative (R144, R145). -/
def queryIndex (w : Word) : Option Nat := if 0 ≤ sint w then some (sint w).toNat else none

/-- The encoders' operand: a word that is not negative (R106, R107). -/
def encodable (w : Word) : Bool := decide (0 ≤ sint w)

/-- BITRANGE's start and length where they are in its domain (R124): the sum is a mathematical integer
and never wraps. -/
def bitField (start len : Word) : Option (Nat × Nat) :=
  if sint len < 1 ∨ 31 < sint len ∨ sint start < 0 ∨ 32 < sint start + sint len then none
  else some ((sint start).toNat, (sint len).toNat)

/-- The three bases of the radix_converter (R100). -/
inductive Base where
  | two
  | ten
  | sixteen
deriving DecidableEq, Repr

/-- The base as a number. -/
def baseValue : Base → Nat
  | .two => 2
  | .ten => 10
  | .sixteen => 16

/-- The valid bytes of a base (R100). The ASCII codes are the spec's own general knowledge; log 8. -/
def isDigit (b : Base) (c : Byte) : Bool :=
  match b with
  | .two => c == 0x30 || c == 0x31
  | .ten => 0x30 ≤ c && c ≤ 0x39
  | .sixteen => (0x30 ≤ c && c ≤ 0x39) || (0x41 ≤ c && c ≤ 0x46)

/-- `digit_b(c)` for a byte c that is a digit (R100): `c - 0x30` if `c <= 0x39`, else `c - 0x41 + 10`. -/
def digitValue (c : Byte) : Byte := if c ≤ 0x39 then c - 0x30 else c - 0x41 + 10

/-- The decode domain check (R101), with the capacity of the text input as an argument: the text is not
empty, not longer than the capacity, and all digits of the base. -/
def numeralOk (tinMax : Nat) (b : Base) (txt : List Byte) : Bool :=
  !txt.isEmpty && decide (txt.length ≤ tinMax) && txt.all (isDigit b)

end Sys2Proof.Machine
end

