-- ==== Sys2Proof/Machine/Ops.lean ====
section
/-!
DEFINITION. The shared operations of every command: writing the response registers (R32), ending OK,
failing with ILLEGAL or DOMAIN (R173, R175), writing BV (R21), the singleton mask (R140), and reset
(R190).

TAKING AN EXCEPTION on this block is `State.fail`: it saves nothing and control goes nowhere, because
there are no traps (R176), and there is no return from one (R177).
-/

namespace Sys2Proof.Machine

/-- What a command's rule produces for the response registers; the rest receive their null values
(R19, R32). -/
structure Response where
  res : Word
  flag : Bool
  txt : List Byte
deriving DecidableEq, Repr

/-- The null response: 0, false and the empty string (R32). -/
def nullResponse : Response := { res := 0, flag := false, txt := [] }

/-- A word result (R27). -/
def wordResponse (v : Word) : Response := { nullResponse with res := v }

/-- A Boolean result (R28). -/
def flagResponse (f : Bool) : Response := { nullResponse with flag := f }

/-- A text result (R29). -/
def textResponse (t : List Byte) : Response := { nullResponse with txt := t }

/-- The end of a command: R_RES, R_FLAG, R_TXT and R_STATUS are written, whatever the status (R32), and
R_ERR takes the status's bit (R175). -/
def State.respond (s : State) (r : Response) (st : Status) : State :=
  { s with
    rRes := r.res
    rFlag := r.flag
    rTxt := r.txt
    rStatus := statusCode st
    rErr := errAfter s.rErr st }

/-- A command that ran (R170, status OK). -/
def State.finish (s : State) (r : Response) : State := s.respond r .ok

/-- A command that failed (R173): null responses, the status, R_ERR's bit, and nothing else. -/
def State.fail (s : State) (st : Status) : State := s.respond nullResponse st

/-- End a command with status OK and a response. -/
def endOk (s : State) (r : Response) : Host.Outcome State Fault Refusal := .next (s.finish r)

/-- `raise Domain()` (R17, R172, R173). -/
def raiseDomain (s : State) : Host.Outcome State Fault Refusal := .next (s.fail .domain)

/-- `raise Illegal()` (R17, R171, R173). -/
def raiseIllegal (s : State) : Host.Outcome State Fault Refusal := .next (s.fail .illegal)

/-- `BV <- v` (R17, R21). -/
def State.writeBv (s : State) (v : Word) : State := { s with bv := v }

/-- The singleton mask `0x00000001 << i` (R140). -/
def singletonMask (i : Nat) : Word := (1 : Word) <<< i

/-- RST (R190, R194): every element of R20 takes its reset value. The host's list and its index are not
the block's and stay; from now on the block has been reset (R192). -/
def State.applyReset (s : State) : State :=
  { State.reset with program := s.program, k := s.k }

/-- The host's event is over: the index advances by exactly 1 (R33). -/
def State.advance (s : State) : State := { s with k := s.k + 1 }

/-- The index advances where a step answered a next state. -/
def advanceNext : Host.Outcome State Fault Refusal → Host.Outcome State Fault Refusal
  | .next s => .next s.advance
  | .fault r => .fault r
  | .refused r => .refused r

/-- The event the host presents now, if its list has not ended (R33). -/
def State.presented (s : State) : Option HostEvent := s.program[s.k]?

/-- The list with `e` at index `n`; a list that ends before `n` is filled up with `e`. -/
def placeAt (e : HostEvent) : Nat → List HostEvent → List HostEvent
  | 0, [] => [e]
  | 0, _ :: rest => e :: rest
  | n + 1, [] => e :: placeAt e n []
  | n + 1, h :: rest => h :: placeAt e n rest

end Sys2Proof.Machine
end

