-- ==== Sys2Proof/Machine/BitPacker.lean ====
section
/-!
DEFINITION. The bit_packer (BitPacker) commands SETBYTE, GETNIB, PACK, BITRANGE, XOR and POW2 (R120 to
R126). Each result is computed from the operands alone (R120).
-/

namespace Sys2Proof.Machine

/-- R121: `(A & ~mask) | (zext_32(B[7:0]) << (8*k))` with `mask = 0x000000FF << (8*k)`. -/
def replaceByte (word byteValue : Word) (k : Nat) : Word :=
  (word &&& ~~~((0x000000FF : Word) <<< (8 * k))) ||| ((trunc8 byteValue).setWidth 32 <<< (8 * k))

/-- R124: `sext_32(A[s+n-1 : s])`. -/
def signedField (num : Word) (start len : Nat) : Word := (num.extractLsb' start len).signExtend 32

/-- SETBYTE: setByte (R121). -/
def execSetbyte (word byteValue index : Word) (s : State) : Host.Outcome State Fault Refusal :=
  match byteIndex index with
  | some k => endOk s (wordResponse (replaceByte word byteValue k))
  | none => raiseDomain s

/-- GETNIB: getNibble (R122). -/
def execGetnib (word index : Word) (s : State) : Host.Outcome State Fault Refusal :=
  match nibbleIndex index with
  | some k => endOk s (wordResponse ((nibbleView word k).setWidth 32))
  | none => raiseDomain s

/-- PACK: pack (R123), `{ A[7:0], B[7:0], C[7:0], D[7:0] }`. -/
def execPack (b3 b2 b1 b0 : Word) (s : State) : Host.Outcome State Fault Refusal :=
  endOk s (wordResponse (trunc8 b3 ++ trunc8 b2 ++ trunc8 b1 ++ trunc8 b0))

/-- BITRANGE: bitRange (R124). -/
def execBitrange (num start len : Word) (s : State) : Host.Outcome State Fault Refusal :=
  match bitField start len with
  | some (from', width) => endOk s (wordResponse (signedField num from' width))
  | none => raiseDomain s

/-- XOR: xor (R125), by AND, OR and NOT. -/
def execXor (a b : Word) (s : State) : Host.Outcome State Fault Refusal :=
  endOk s (wordResponse ((a &&& ~~~b) ||| (~~~a &&& b)))

/-- POW2: powerOf2 (R126). -/
def execPow2 (n : Word) (s : State) : Host.Outcome State Fault Refusal :=
  endOk s (flagResponse (powerOfTwoFlag n))

end Sys2Proof.Machine
end

