-- ==== Sys2Proof/Machine/RadixConverter.lean ====
section
/-!
DEFINITION. The radix_converter (NumeralCodec) commands DDEC, DBIN, DHEX, EBIN and EHEX (R100 to R107).
They read no state and write only the response registers.
-/

namespace Sys2Proof.Machine

/-- The loop of R102 over the characters from the right: `acc` is the sum so far, `w` the weight
`b^k mod 2^32` of the next character. -/
def posvalFrom (b : Word) : List Byte → Word → Word → Word
  | [], acc, _ => acc
  | c :: rest, acc, w => posvalFrom b rest (acc + (digitValue c).setWidth 32 * w) (w * b)

/-- The positional value of a numeral, mod 2^32 (R102). -/
def posval (b : Base) (txt : List Byte) : Word :=
  posvalFrom (BitVec.ofNat 32 (baseValue b)) txt.reverse 0 1

/-- The shape of a decode command (R101, R102): check the numeral, then give its positional value. -/
def decodeNumeral (b : Base) (txt : List Byte) (s : State) : Host.Outcome State Fault Refusal :=
  if numeralOk Config.tinMax b txt then endOk s (wordResponse (posval b txt)) else raiseDomain s

/-- `chr(c)` of a binary digit (R18, R106). -/
def binChar (bit : Bool) : Byte := if bit then 0x31 else 0x30

/-- `HEXCH[v]` (R107). -/
def hexChar (v : BitVec 4) : Byte :=
  if v ≤ 9 then 0x30 + v.setWidth 8 else 0x41 + (v.setWidth 8 - 10)

/-- The loop of R106: prepend the digit of bit 0, shift right by 1, until nothing is left. The first
argument bounds the iterations; 32 is enough for every word (log 12). -/
def binLoop : Nat → Word → List Byte → List Byte
  | 0, _, txt => txt
  | fuel + 1, m, txt =>
    if m ≠ 0 then binLoop fuel (m >>> 1) (binChar (m.getLsbD 0) :: txt) else txt

/-- The minimal binary numeral of a word that is not negative (R106). -/
def binNumeral (n : Word) : List Byte := if n = 0 then [0x30] else binLoop 32 n []

/-- The loop of R107: prepend the digit of nibble 0, shift right by 4, while what is left is at least 1
as a signed number. The first argument bounds the iterations; 8 is enough (log 12). -/
def hexLoop : Nat → Word → List Byte → List Byte
  | 0, _, txt => txt
  | fuel + 1, m, txt =>
    if 1 ≤ sint m then hexLoop fuel (m >>> 4) (hexChar (nibbleView m 0) :: txt) else txt

/-- The minimal upper-case hexadecimal numeral of a word that is not negative (R107). -/
def hexNumeral (n : Word) : List Byte := if n = 0 then [0x30] else hexLoop 8 n []

/-- DDEC: decodeDecimal (R103). -/
def execDdec (txt : List Byte) (s : State) : Host.Outcome State Fault Refusal :=
  decodeNumeral .ten txt s

/-- DBIN: decodeBinary (R104). -/
def execDbin (txt : List Byte) (s : State) : Host.Outcome State Fault Refusal :=
  decodeNumeral .two txt s

/-- DHEX: decodeHex (R105). -/
def execDhex (txt : List Byte) (s : State) : Host.Outcome State Fault Refusal :=
  decodeNumeral .sixteen txt s

/-- EBIN: encodeBinary (R106). -/
def execEbin (n : Word) (s : State) : Host.Outcome State Fault Refusal :=
  if encodable n then endOk s (textResponse (binNumeral n)) else raiseDomain s

/-- EHEX: encodeHex (R107). -/
def execEhex (n : Word) (s : State) : Host.Outcome State Fault Refusal :=
  if encodable n then endOk s (textResponse (hexNumeral n)) else raiseDomain s

end Sys2Proof.Machine
end

