-- ==== Sys2Proof/Machine/BitvectorRegister.lean ====
section
/-!
DEFINITION. The bitvector_register (BitVector) and popcount_unit commands BSET, BCLR, BTGL, BISSET,
BISCLR, BSTR, BONES, BZEROS and BSIZE (R140 to R149). Only the first three write BV (R21).
-/

namespace Sys2Proof.Machine

/-- The shape of a mutator (R140 to R143): check the index, then write BV with `change` applied to it and
the singleton mask; no response register is produced. -/
def mutate (change : Word → Word → Word) (idx : Word) (s : State) : Host.Outcome State Fault Refusal :=
  match mutatorIndex idx with
  | some i => endOk (s.writeBv (change s.bv (singletonMask i))) nullResponse
  | none => raiseDomain s

/-- The shape of a bit query (R144, R145): a negative index is out of domain. -/
def query (flag : Word → Nat → Bool) (idx : Word) (s : State) : Host.Outcome State Fault Refusal :=
  match queryIndex idx with
  | some i => endOk s (flagResponse (flag s.bv i))
  | none => raiseDomain s

/-- The 32 characters of a word, most significant bit first (R146). -/
def bitString (w : Word) : List Byte :=
  (List.range 32).map fun j => binChar (w.getLsbD (31 - j))

/-- `popcount(w)`: the number of bits of w equal to 1 (R15). -/
def popcount (w : Word) : Nat := (List.range 32).countP fun i => w.getLsbD i

/-- The scan of R149 from bit i down to bit 1: one more than the index of the first set bit it meets,
and 1 when it meets none. -/
def sizeFrom (w : Word) : Nat → Nat
  | 0 => 1
  | i + 1 => if w.getLsbD (i + 1) then i + 2 else sizeFrom w i

/-- BSET: set (R141). -/
def execBset (idx : Word) (s : State) : Host.Outcome State Fault Refusal :=
  mutate (fun bv m => bv ||| m) idx s

/-- BCLR: clear (R142). -/
def execBclr (idx : Word) (s : State) : Host.Outcome State Fault Refusal :=
  mutate (fun bv m => bv &&& ~~~m) idx s

/-- BTGL: toggle (R143). -/
def execBtgl (idx : Word) (s : State) : Host.Outcome State Fault Refusal :=
  mutate (fun bv m => bv ^^^ m) idx s

/-- BISSET: isSet (R144). -/
def execBisset (idx : Word) (s : State) : Host.Outcome State Fault Refusal :=
  query isSetFlag idx s

/-- BISCLR: isClear (R145). -/
def execBisclr (idx : Word) (s : State) : Host.Outcome State Fault Refusal :=
  query isClearFlag idx s

/-- BSTR: toString (R146). -/
def execBstr (s : State) : Host.Outcome State Fault Refusal :=
  endOk s (textResponse (bitString s.bv))

/-- BONES: onesCount (R147). -/
def execBones (s : State) : Host.Outcome State Fault Refusal :=
  endOk s (wordResponse (BitVec.ofNat 32 (popcount s.bv)))

/-- BZEROS: zerosCount (R148). -/
def execBzeros (s : State) : Host.Outcome State Fault Refusal :=
  endOk s (wordResponse (BitVec.ofNat 32 (32 - popcount s.bv)))

/-- BSIZE: size (R149, 90_conflicts.md C1). -/
def execBsize (s : State) : Host.Outcome State Fault Refusal :=
  endOk s (wordResponse (BitVec.ofNat 32 (sizeFrom s.bv 31)))

end Sys2Proof.Machine
end

