-- ==== Sys2Proof/Machine/Dispatch.lean ====
section
/-!
DEFINITION. The dispatch of the twenty operations to their meanings.
-/

namespace Sys2Proof.Machine

def exec (i : Instr) (s : State) : Host.Outcome State Fault Refusal :=
  match i with
  | .ddec txt => Sys2Proof.Machine.execDdec txt s
  | .dbin txt => Sys2Proof.Machine.execDbin txt s
  | .dhex txt => Sys2Proof.Machine.execDhex txt s
  | .ebin n => Sys2Proof.Machine.execEbin n s
  | .ehex n => Sys2Proof.Machine.execEhex n s
  | .setbyte word byteValue index => Sys2Proof.Machine.execSetbyte word byteValue index s
  | .getnib word index => Sys2Proof.Machine.execGetnib word index s
  | .pack b3 b2 b1 b0 => Sys2Proof.Machine.execPack b3 b2 b1 b0 s
  | .bitrange num start len => Sys2Proof.Machine.execBitrange num start len s
  | .xor a b => Sys2Proof.Machine.execXor a b s
  | .pow2 n => Sys2Proof.Machine.execPow2 n s
  | .bset idx => Sys2Proof.Machine.execBset idx s
  | .bclr idx => Sys2Proof.Machine.execBclr idx s
  | .btgl idx => Sys2Proof.Machine.execBtgl idx s
  | .bisset idx => Sys2Proof.Machine.execBisset idx s
  | .bisclr idx => Sys2Proof.Machine.execBisclr idx s
  | .bstr => Sys2Proof.Machine.execBstr s
  | .bones => Sys2Proof.Machine.execBones s
  | .bzeros => Sys2Proof.Machine.execBzeros s
  | .bsize => Sys2Proof.Machine.execBsize s

end Sys2Proof.Machine
end

