-- ==== Sys2Proof/Machine/Sequencer.lean ====
section
/-!
DEFINITION. How the block takes what the host presents: one event at a time, in the host's order (R33,
R52, R191).
-/

namespace Sys2Proof.Machine

/-- What the block does with a command it has been reset for: a word that selects no operation ends
ILLEGAL without a look at the operands (R171, R174), any other runs its operation. -/
def runCommand (c : Command) (s : State) : Host.Outcome State Fault Refusal :=
  match decode c with
  | .ok i => exec i s
  | .error _ => raiseIllegal s

/-- Taking one command (R49, R52): before the first reset there is no step for it (R192); otherwise it
runs and the host's index advances, whatever its status (R33). -/
def takeCommand (c : Command) (s : State) : Host.Outcome State Fault Refusal :=
  if s.wasReset then advanceNext (runCommand c s) else .refused .commandBeforeReset

/-- One event of the host (R190, R191). Where its list has ended, or before it presents its first
event, the block waits and nothing changes (R185, R190, log 3). -/
def takeEvent (s : State) : Host.Outcome State Fault Refusal :=
  match s.presented with
  | some (.command c) => takeCommand c s
  | some .reset => .next s.applyReset.advance
  | none => .next s

/-- The state in which the host presents `c` next: the list holds it at the index and the block has been
reset. -/
def State.presenting (s : State) (c : Command) : State :=
  { s with program := placeAt (.command c) s.k s.program, wasReset := true }

end Sys2Proof.Machine
end

