-- ==== Sys2Proof/Machine/Step.lean ====
section
/-!
DEFINITION. One step of the machine, and the host's way to present a row's word as the next command.
-/

namespace Sys2Proof.Machine

/-- One step: the block takes the next event of the host. -/
def step (s : State) : Host.Outcome State Fault Refusal := takeEvent s

/-- The state whose next step runs the command with these bits (log 2, log 11). -/
def State.withFetchWord (s : State) (nbits w : Nat) : State := s.presenting (commandOfBits nbits w)

end Sys2Proof.Machine
end

