-- ==== Sys2Proof/Machine/Assembler.lean ====
section
/-!
DEFINITION. The assembler of R68 to R72: a total function from the bytes of a line to what the host
presents. It is host-side text, no part of the block: a program's commands become its `program`.
-/

namespace Sys2Proof.Assembler

/-- The ASCII codes of a string's characters (R18, R71, log 8). -/
def ascii (str : String) : List Byte := str.toList.map fun c => BitVec.ofNat 8 c.toNat

/-- Why a line is rejected and produces no command (R69, R70). -/
inductive AsmError where
  /-- The line is no sequence of words, commas and closed strings with valid escapes (R68, R71). -/
  | malformed
  /-- The first word is no mnemonic of R63 and no `.raw`. -/
  | unknownMnemonic
  /-- An operand is no literal of R70 or R71, or the operands are not separated by single commas. -/
  | badOperand
  /-- The number or the kind of the operands is not the mnemonic's (R69). -/
  | wrongOperands
deriving DecidableEq, Repr

/-- The pieces of a line: a run of other characters, a comma, or the bytes of a quoted string. -/
inductive Token where
  | word (chars : List Byte)
  | comma
  | text (bytes : List Byte)
deriving DecidableEq, Repr

/-- An operand by its kind (R69): an `int` as the pattern of R70, or a string as its bytes (R71). -/
inductive Operand where
  | int (w : Word)
  | text (t : List Byte)
deriving DecidableEq, Repr

/-- What a line stands for: nothing, an operation, or the arbitrary command of `.raw` (R68, R72). -/
inductive Line where
  | blank
  | instr (i : Instr)
  | raw (c : Command)
deriving DecidableEq, Repr

/-- Where the lexer stands in a line. The characters read so far are held last one first. -/
inductive LexMode where
  | gap
  | word (chars : List Byte)
  | text (bytes : List Byte)
  | escape (bytes : List Byte)
  | hexHi (bytes : List Byte)
  | hexLo (bytes : List Byte) (hi : Byte)
deriving DecidableEq, Repr

/-- Space, tab and carriage return separate words. DESIGN CHOICE, log 9. -/
def isBlank (c : Byte) : Bool := c == 0x20 || c == 0x09 || c == 0x0D

/-- The value of a decimal digit. -/
def decDigit (c : Byte) : Option Nat :=
  if 0x30 ≤ c && c ≤ 0x39 then some (c.toNat - 0x30) else none

/-- The value of a hexadecimal digit. R70 gives `0x` literals digits in either case. R71 says only "two
hexadecimal digits" of the `\xHH` escape: that either case is read there too is a DESIGN CHOICE, log 9. -/
def hexDigit (c : Byte) : Option Nat :=
  if 0x30 ≤ c && c ≤ 0x39 then some (c.toNat - 0x30)
  else if 0x41 ≤ c && c ≤ 0x46 then some (c.toNat - 0x41 + 10)
  else if 0x61 ≤ c && c ≤ 0x66 then some (c.toNat - 0x61 + 10)
  else none

/-- The tokens of a line. A comment runs from `;` outside a string to the end (R68). Inside a string a
character stands for its ASCII code, with the escapes of R71; the case of the digits of `\xHH`,
and the rejection of a byte that is no ASCII code and of any other escape, are log 9's. -/
def lex : LexMode → List Byte → Option (List Token)
  | .gap, [] => some []
  | .word w, [] => some [.word w.reverse]
  | .text _, [] => none
  | .escape _, [] => none
  | .hexHi _, [] => none
  | .hexLo _ _, [] => none
  | .gap, c :: rest =>
    if isBlank c then lex .gap rest
    else if c = 0x3B then some []
    else if c = 0x2C then (lex .gap rest).map (.comma :: ·)
    else if c = 0x22 then lex (.text []) rest
    else lex (.word [c]) rest
  | .word w, c :: rest =>
    if isBlank c then (lex .gap rest).map (.word w.reverse :: ·)
    else if c = 0x3B then some [.word w.reverse]
    else if c = 0x2C then (lex .gap rest).map ([.word w.reverse, .comma] ++ ·)
    else if c = 0x22 then none
    else lex (.word (c :: w)) rest
  | .text t, c :: rest =>
    if c = 0x22 then (lex .gap rest).map (.text t.reverse :: ·)
    else if c = 0x5C then lex (.escape t) rest
    else if c ≤ 0x7F then lex (.text (c :: t)) rest
    else none
  | .escape t, c :: rest =>
    if c = 0x22 ∨ c = 0x5C then lex (.text (c :: t)) rest
    else if c = 0x78 then lex (.hexHi t) rest
    else none
  | .hexHi t, c :: rest =>
    match hexDigit c with
    | some v => lex (.hexLo t (BitVec.ofNat 8 v)) rest
    | none => none
  | .hexLo t hi, c :: rest =>
    match hexDigit c with
    | some v => lex (.text ((hi * 16 + BitVec.ofNat 8 v) :: t)) rest
    | none => none

/-- The value of a run of digits, first digit most significant; none where a character is no digit or
there is none. -/
def readDigits (base : Nat) (digit : Byte → Option Nat) (chars : List Byte) : Option Nat :=
  if chars.isEmpty then none
  else chars.foldl (fun acc c => acc.bind fun n => (digit c).map (n * base + ·)) (some 0)

/-- An `int` literal as its pattern mod 2^32 (R70): `0x` with one to eight digits, a decimal numeral up
to 2^32-1, or a negative decimal numeral down to -2^31. -/
def readInt (chars : List Byte) : Option Word :=
  if chars.take 2 = [0x30, 0x78] then
    if (chars.drop 2).length ≤ 8 then (readDigits 16 hexDigit (chars.drop 2)).map (BitVec.ofNat 32)
    else none
  else if chars.take 1 = [0x2D] then
    match readDigits 10 decDigit (chars.drop 1) with
    | some n => if n ≤ 2 ^ 31 then some (BitVec.ofInt 32 (-(n : Int))) else none
    | none => none
  else
    match readDigits 10 decDigit chars with
    | some n => if n < 2 ^ 32 then some (BitVec.ofNat 32 n) else none
    | none => none

/-- One operand (R70, R71). -/
def readOperand : Token → Option Operand
  | .word w => (readInt w).map .int
  | .comma => none
  | .text t => some (.text t)

/-- The operands after the first: each after one comma (R68). -/
def readMore : List Token → Option (List Operand)
  | [] => some []
  | .comma :: t :: rest =>
    match readOperand t, readMore rest with
    | some o, some os => some (o :: os)
    | _, _ => none
  | _ => none

/-- `[operand {, operand}]` (R68). -/
def readOperands : List Token → Option (List Operand)
  | [] => some []
  | t :: rest =>
    match readOperand t, readMore rest with
    | some o, some os => some (o :: os)
    | _, _ => none

/-- The shape `"string"` (R69). -/
def oneText (f : List Byte → Instr) : List Operand → Option Instr
  | [.text t] => some (f t)
  | _ => none

/-- The empty shape (R69). -/
def noOperand (i : Instr) : List Operand → Option Instr
  | [] => some i
  | _ => none

/-- The shape `int` (R69). -/
def oneInt (f : Word → Instr) : List Operand → Option Instr
  | [.int a] => some (f a)
  | _ => none

/-- The shape `int, int` (R69). -/
def twoInts (f : Word → Word → Instr) : List Operand → Option Instr
  | [.int a, .int b] => some (f a b)
  | _ => none

/-- The shape `int, int, int` (R69). -/
def threeInts (f : Word → Word → Word → Instr) : List Operand → Option Instr
  | [.int a, .int b, .int c] => some (f a b c)
  | _ => none

/-- The shape `int, int, int, int` (R69). -/
def fourInts (f : Word → Word → Word → Word → Instr) : List Operand → Option Instr
  | [.int a, .int b, .int c, .int d] => some (f a b c d)
  | _ => none

/-- The mnemonics of R63 with their operand shapes (R69). -/
def mnemonicTable : List (List Byte × (List Operand → Option Instr)) :=
  [ (ascii "DDEC", oneText .ddec), (ascii "DBIN", oneText .dbin), (ascii "DHEX", oneText .dhex),
    (ascii "EBIN", oneInt .ebin), (ascii "EHEX", oneInt .ehex),
    (ascii "SETBYTE", threeInts .setbyte), (ascii "GETNIB", twoInts .getnib),
    (ascii "PACK", fourInts .pack), (ascii "BITRANGE", threeInts .bitrange),
    (ascii "XOR", twoInts .xor), (ascii "POW2", oneInt .pow2),
    (ascii "BSET", oneInt .bset), (ascii "BCLR", oneInt .bclr), (ascii "BTGL", oneInt .btgl),
    (ascii "BISSET", oneInt .bisset), (ascii "BISCLR", oneInt .bisclr),
    (ascii "BSTR", noOperand .bstr), (ascii "BONES", noOperand .bones),
    (ascii "BZEROS", noOperand .bzeros), (ascii "BSIZE", noOperand .bsize) ]

/-- An ASCII letter in upper case; any other byte as it is (R68: without regard to case). -/
def upCase (c : Byte) : Byte := if 0x61 ≤ c && c ≤ 0x7A then c - 0x20 else c

/-- `.raw cmd, a, b, c, d`: an arbitrary command with TLEN = 0 (R72). -/
def buildRaw : List Operand → Option Command
  | [.int cmd, .int a, .int b, .int c, .int d] =>
    some { cmd := cmd, a := a, b := b, c := c, d := d, tin := [] }
  | _ => none

/-- The line with this first word and these operands (R69, R72). -/
def buildLine (first : List Byte) (ops : List Operand) : Except AsmError Line :=
  if first = ascii ".raw" then
    match buildRaw ops with
    | some c => .ok (.raw c)
    | none => .error .wrongOperands
  else
    match mnemonicTable.lookup (first.map upCase) with
    | none => .error .unknownMnemonic
    | some build =>
      match build ops with
      | some i => .ok (.instr i)
      | none => .error .wrongOperands

/-- One line of a program (R68). -/
def parseLine (chars : List Byte) : Except AsmError Line :=
  match lex .gap chars with
  | none => .error .malformed
  | some [] => .ok .blank
  | some (.word first :: rest) =>
    match readOperands rest with
    | some ops => buildLine first ops
    | none => .error .badOperand
  | some _ => .error .malformed

/-- The command a line presents (R72); an empty or comment line presents none. -/
def lineCommand : Line → Option Command
  | .blank => none
  | .instr i => some (encode i)
  | .raw c => some c

/-- The lines of a source text, split at the byte 0x0A (log 9). -/
def splitLines : List Byte → List Byte → List (List Byte)
  | [], cur => [cur.reverse]
  | c :: rest, cur => if c = 0x0A then cur.reverse :: splitLines rest [] else splitLines rest (c :: cur)

/-- What the assembler makes of each line of a source text (R68). -/
def assembleLines (src : List Byte) : List (Except AsmError Line) := (splitLines src []).map parseLine

/-- The commands of a source text in order; a rejected line produces none (R69). -/
def assemble (src : List Byte) : List Command :=
  (assembleLines src).filterMap fun r =>
    match r with
    | .ok l => lineCommand l
    | .error _ => none

end Sys2Proof.Assembler
end

