-- ==== Sys2Proof/Safety.lean ====
section
/-!
DEFINITION. The terms in which claims speak of runs: what the host observes, a run of a program, which
run is free of errors, the presentation of a failed command as a fault (R178), the invariants of the
state, and the textbook value and shape of a numeral.
-/

namespace Sys2Proof.Safety

open Sys2Proof.Machine

/-- What the host can read (R20, R184): the response registers and R_ERR. BV is not among them (R23). -/
structure HostView where
  res : Word
  flag : Bool
  txt : List Byte
  status : BitVec 2
  err : BitVec 2
deriving DecidableEq, Repr

/-- The host's reading of a state. A read changes nothing (log 10). -/
def hostView (s : State) : HostView :=
  { res := s.rRes, flag := s.rFlag, txt := s.rTxt, status := s.rStatus, err := s.rErr }

/-- The reset state with a host's list of events loaded (R33, R199). -/
def loaded (p : List HostEvent) : State := { State.reset with program := p }

/-- `n` steps from a state, stopping at a step that gives no next state. -/
def runSteps : Nat → State → Host.Outcome State Fault Refusal
  | 0, s => .next s
  | n + 1, s =>
    match step s with
    | .next t => runSteps n t
    | .fault r => .fault r
    | .refused r => .refused r

/-- A run of a program from the reset state: one step for each of its commands (R199). -/
def runProgram (p : List Command) : Host.Outcome State Fault Refusal :=
  runSteps p.length (loaded (p.map .command))

/-- No command since the last reset failed (R31, R175, R178). -/
abbrev errFree (s : State) : Prop := s.rErr = 0

/-- The fault with which R178 presents the command that left this state. -/
def statusFault (s : State) : Option Fault :=
  if s.rStatus = statusCode .illegal then some .illegal
  else if s.rStatus = statusCode .domain then some .domain
  else none

/-- The same step as `step`, presented as R178 asks: a command that ends ILLEGAL or DOMAIN is a fault
outcome. `step` itself goes on from it, as R173 and R176 say (log 1). -/
def checkedStep (s : State) : Host.Outcome State Fault Refusal :=
  match s.presented, step s with
  | some (.command _), .next t =>
    match statusFault t with
    | some f => .fault f
    | none => .next t
  | _, r => r

/-- At most one response register is not null (R27, R28, R29, R32), the text fits R11's 32 bytes, the
reserved status code is not there (R30), and the text of a result holds digit characters only. -/
structure ResponseOk (s : State) : Prop where
  textLength : s.rTlen ≤ 32
  textDigits : s.rTxt.all (isDigit .sixteen) = true
  statusDefined : s.rStatus ≠ 3
  wordAlone : s.rRes ≠ 0 → s.rFlag = false ∧ s.rTxt = []
  flagAlone : s.rFlag = true → s.rRes = 0 ∧ s.rTxt = []
  failedNull : s.rStatus ≠ 0 → s.rRes = 0 ∧ s.rFlag = false ∧ s.rTxt = []
  illegalSeen : s.rStatus = 1 → s.rErr.getLsbD 0 = true
  domainSeen : s.rStatus = 2 → s.rErr.getLsbD 1 = true

/-- The host's index never passes the end of its list (R33). -/
abbrev IndexOk (s : State) : Prop := s.k ≤ s.program.length

/-- The state after a command that ended OK with these responses: all four response registers are
written (R32), R_ERR stays (R175), and everything else is as before. -/
def okEnd (s : State) (res : Word) (flag : Bool) (txt : List Byte) : State :=
  { s with rRes := res, rFlag := flag, rTxt := txt, rStatus := 0 }

/-- The state after a command that ended DOMAIN: null responses, status 2, R_ERR's bit 1 set, and
everything else as before (R173, R175). -/
def domainEnd (s : State) : State :=
  { s with rRes := 0, rFlag := false, rTxt := [], rStatus := 2, rErr := s.rErr ||| 0b10 }

/-- The state after a command that ended ILLEGAL: null responses, status 1, R_ERR's bit 0 set, and
everything else as before (R173, R175). -/
def illegalEnd (s : State) : State :=
  { s with rRes := 0, rFlag := false, rTxt := [], rStatus := 1, rErr := s.rErr ||| 0b01 }

/-- The illegal command words, by R66's list. -/
abbrev illegalWord (w : Word) : Prop :=
  w.toNat / 256 ≠ 0 ∨ w.toNat = 0x00 ∨ (0x06 ≤ w.toNat ∧ w.toNat ≤ 0x0F) ∨
    (0x16 ≤ w.toNat ∧ w.toNat ≤ 0x1F) ∨ (0x29 ≤ w.toNat ∧ w.toNat ≤ 0xFF)

/-- The operands of an operation stand on the inputs R63 names for it; the other inputs are free (R65). -/
def takesFrom : Instr → Command → Prop
  | .ddec txt, c => c.tin = txt
  | .dbin txt, c => c.tin = txt
  | .dhex txt, c => c.tin = txt
  | .ebin n, c => c.a = n
  | .ehex n, c => c.a = n
  | .setbyte word byteValue index, c => c.a = word ∧ c.b = byteValue ∧ c.c = index
  | .getnib word index, c => c.a = word ∧ c.b = index
  | .pack b3 b2 b1 b0, c => c.a = b3 ∧ c.b = b2 ∧ c.c = b1 ∧ c.d = b0
  | .bitrange num start len, c => c.a = num ∧ c.b = start ∧ c.c = len
  | .xor a b, c => c.a = a ∧ c.b = b
  | .pow2 n, c => c.a = n
  | .bset idx, c => c.a = idx
  | .bclr idx, c => c.a = idx
  | .btgl idx, c => c.a = idx
  | .bisset idx, c => c.a = idx
  | .bisclr idx, c => c.a = idx
  | .bstr, _ => True
  | .bones, _ => True
  | .bzeros, _ => True
  | .bsize, _ => True

/-- A byte from 0x30 to 0x39, a decimal digit (R100). -/
abbrev decChar (c : Byte) : Prop := 0x30 ≤ c.toNat ∧ c.toNat ≤ 0x39

/-- A byte 0x30 or 0x31, a binary digit (R100). -/
abbrev bitChar (c : Byte) : Prop := c.toNat = 0x30 ∨ c.toNat = 0x31

/-- A decimal digit or a byte from 0x41 to 0x46, an upper-case hexadecimal digit (R100). -/
abbrev upperHexChar (c : Byte) : Prop := decChar c ∨ (0x41 ≤ c.toNat ∧ c.toNat ≤ 0x46)

/-- A text that passes R101 for digits of the kind `digit`. -/
abbrev numeral (digit : Byte → Prop) (txt : List Byte) : Prop :=
  txt ≠ [] ∧ txt.length ≤ Config.tinMax ∧ ∀ c ∈ txt, digit c

/-- The value of a digit (R100). -/
def digitNat (c : Byte) : Nat := if c.toNat ≤ 0x39 then c.toNat - 0x30 else c.toNat - 0x41 + 10

/-- The sum over the positions of a numeral of digit times base^position, as a natural number (R102). -/
def numeralSum (base : Nat) : List Byte → Nat
  | [] => 0
  | c :: rest => digitNat c * base ^ rest.length + numeralSum base rest

/-- A numeral without leading zeros: it is "0", or its first character is not '0' (R106, R107, R109). -/
abbrev minimalNumeral (txt : List Byte) : Prop := txt = [0x30] ∨ (txt ≠ [] ∧ txt.head? ≠ some 0x30)

/-- The operands for which a command ends DOMAIN: the table of R172. -/
def outOfDomain : Instr → Prop
  | .ddec txt => ¬ numeral decChar txt
  | .dbin txt => ¬ numeral bitChar txt
  | .dhex txt => ¬ numeral upperHexChar txt
  | .ebin n => n.toInt < 0
  | .ehex n => n.toInt < 0
  | .setbyte _ _ index => index.toInt < 0 ∨ 3 < index.toInt
  | .getnib _ index => index.toInt < 0 ∨ 7 < index.toInt
  | .pack _ _ _ _ => False
  | .bitrange _ start len =>
    len.toInt < 1 ∨ 31 < len.toInt ∨ start.toInt < 0 ∨ 32 < start.toInt + len.toInt
  | .xor _ _ => False
  | .pow2 _ => False
  | .bset idx => idx.toInt < 0 ∨ 31 < idx.toInt
  | .bclr idx => idx.toInt < 0 ∨ 31 < idx.toInt
  | .btgl idx => idx.toInt < 0 ∨ 31 < idx.toInt
  | .bisset idx => idx.toInt < 0
  | .bisclr idx => idx.toInt < 0
  | .bstr => False
  | .bones => False
  | .bzeros => False
  | .bsize => False

/-- The host presents `c` next, and the block has been reset: the command can be taken (R192). -/
abbrev Ready (s : State) (c : Command) : Prop :=
  s.wasReset = true ∧ s.presented = some (.command c)

/-- The characters that write one byte of a string operand (R71). The byte 0x0A is escaped, since a source
text is split into lines there, between quotes too (log 9). -/
def quoteByte (c : Byte) : List Byte :=
  if c = 0x22 then [0x5C, 0x22]
  else if c = 0x5C then [0x5C, 0x5C]
  else if c.toNat ≤ 0x7F ∧ c ≠ 0x0A then [c]
  else [0x5C, 0x78, hexChar (c.extractLsb' 4 4), hexChar (c.extractLsb' 0 4)]

/-- A string operand that stands for these bytes (R71). -/
def quoteBytes (bytes : List Byte) : List Byte := [0x22] ++ bytes.flatMap quoteByte ++ [0x22]

/-- The `int` operands of a line, in order (R69). -/
def intOperands (ops : List Assembler.Operand) : List Word :=
  ops.filterMap fun o =>
    match o with
    | .int w => some w
    | .text _ => none

/-- The string operands of a line, in order (R69). -/
def textOperands (ops : List Assembler.Operand) : List (List Byte) :=
  ops.filterMap fun o =>
    match o with
    | .int _ => none
    | .text t => some t

/-- What R63 and R69 say of one mnemonic: its name, its operation code, and how many `int` and string
operands its line has. -/
structure MnemonicRow where
  name : List Byte
  op : Nat
  ints : Nat
  texts : Nat
deriving DecidableEq, Repr

/-- The mnemonics with the codes of R63 and the operand shapes of R69, written out from those tables apart
from the assembler's own table and the encoder's. -/
def mnemonicRows : List MnemonicRow :=
  [ ⟨Assembler.ascii "DDEC", 0x01, 0, 1⟩, ⟨Assembler.ascii "DBIN", 0x02, 0, 1⟩,
    ⟨Assembler.ascii "DHEX", 0x03, 0, 1⟩, ⟨Assembler.ascii "EBIN", 0x04, 1, 0⟩,
    ⟨Assembler.ascii "EHEX", 0x05, 1, 0⟩, ⟨Assembler.ascii "SETBYTE", 0x10, 3, 0⟩,
    ⟨Assembler.ascii "GETNIB", 0x11, 2, 0⟩, ⟨Assembler.ascii "PACK", 0x12, 4, 0⟩,
    ⟨Assembler.ascii "BITRANGE", 0x13, 3, 0⟩, ⟨Assembler.ascii "XOR", 0x14, 2, 0⟩,
    ⟨Assembler.ascii "POW2", 0x15, 1, 0⟩, ⟨Assembler.ascii "BSET", 0x20, 1, 0⟩,
    ⟨Assembler.ascii "BCLR", 0x21, 1, 0⟩, ⟨Assembler.ascii "BTGL", 0x22, 1, 0⟩,
    ⟨Assembler.ascii "BISSET", 0x23, 1, 0⟩, ⟨Assembler.ascii "BISCLR", 0x24, 1, 0⟩,
    ⟨Assembler.ascii "BSTR", 0x25, 0, 0⟩, ⟨Assembler.ascii "BONES", 0x26, 0, 0⟩,
    ⟨Assembler.ascii "BZEROS", 0x27, 0, 0⟩, ⟨Assembler.ascii "BSIZE", 0x28, 0, 0⟩ ]

/-- The operands have the number and the kinds of a mnemonic (R69). -/
abbrev operandsFit (row : MnemonicRow) (ops : List Assembler.Operand) : Prop :=
  (intOperands ops).length = row.ints ∧ (textOperands ops).length = row.texts

/-- The command R72 gives a line: `CMD = zext_32(OP)`, the `int` operands in order on A, B, C, D with 0 on
the rest, the string on TIN, and TLEN = 0 without one. -/
def lineInputs (op : Nat) (ops : List Assembler.Operand) : Command :=
  { cmd := BitVec.ofNat 32 op
    a := (intOperands ops).getD 0 0
    b := (intOperands ops).getD 1 0
    c := (intOperands ops).getD 2 0
    d := (intOperands ops).getD 3 0
    tin := (textOperands ops).getD 0 [] }

end Sys2Proof.Safety
end

