-- ==== Sys2Proof/Certificates/Slice0/Obligations.lean ====
section
/-!
DEFINITION. The statements for the provers. `okEnd`, `domainEnd` and `illegalEnd` (Sys2Proof/Safety.lean)
write the whole next state out as a record update of the state before, so an equation `… = .next (okEnd …)`
is at once the result, the completion and the frame of an instruction: BV, R_ERR, the host's list and
its index are as before unless the update names them.
-/

open Sys2Proof Sys2Proof.Machine Sys2Proof.Safety

/-! ### Encoding -/

/-- R63, R64, R72: the decoder gives back every operation from its command tuple, with every operand at
every value. -/
def Obligations.DecodeOfEncodeIsIdentity : Prop :=
  ∀ i : Instr, decode (encode i) = .ok i

/-- R61, R63, R64, R67: a command decodes to an operation exactly if its word is the zero-extended
operation code and the operands stand on the inputs the opcode map names. -/
def Obligations.DecodeIsExactlyTheOpcodeMap : Prop :=
  ∀ (c : Command) (i : Instr),
    decode c = .ok i ↔ c.cmd.toNat = (opcode i).toNat ∧ takesFrom i c

/-- R63: words written out from the opcode map, one per family at least, decode to their operations, and
words it does not list to none. A row's word gives CMD only: that every operand is then 0 and the text
empty is THE MODEL'S CHOICE (log 11). -/
def Obligations.OpcodeMapWordsDecode : Prop :=
  decodeTableWord 32 0x00000001 = some (.ddec []) ∧
  decodeTableWord 32 0x00000005 = some (.ehex 0) ∧
  decodeTableWord 32 0x00000010 = some (.setbyte 0 0 0) ∧
  decodeTableWord 32 0x00000015 = some (.pow2 0) ∧
  decodeTableWord 32 0x00000020 = some (.bset 0) ∧
  decodeTableWord 32 0x00000028 = some .bsize ∧
  decodeTableWord 32 0x00000000 = none ∧
  decodeTableWord 32 0x00000029 = none ∧
  decodeTableWord 32 0x00000101 = none

/-- R66: an illegal word ends with ILLEGAL and changes nothing else; every other word selects an
operation. -/
def Obligations.IllegalWordEndsIllegal : Prop :=
  ∀ (s : State) (c : Command), Ready s c →
    (illegalWord c.cmd → step s = .next { illegalEnd s with k := s.k + 1 }) ∧
    (¬ illegalWord c.cmd → ∃ i, decode c = .ok i)

/-- R65: inputs that the opcode map does not list for a command never change its result or status. -/
def Obligations.IgnoredInputsDoNotMatter : Prop :=
  ∀ (c c' : Command) (i : Instr) (s : State),
    decode c = .ok i → c'.cmd = c.cmd → takesFrom i c' → runCommand c' s = runCommand c s

/-! ### Steps -/

/-- R33, R49, R52: a command that is presented and selects an operation is run by the next step; beside the
operation's own effect only the host's index advances. -/
def Obligations.StepRunsTheDecodedCommand : Prop :=
  ∀ (s : State) (c : Command) (i : Instr), Ready s c → decode c = .ok i →
    ∃ t, exec i s = .next t ∧ step s = .next { t with k := s.k + 1 }

/-- R190, R194: RST sets every element of R20 to its reset value, from any state, and the queries then
give the values of R194. -/
def Obligations.ResetSetsResetValues : Prop :=
  ∀ s : State, s.presented = some .reset →
    ∃ t, step s = .next t ∧
      t.bv = 0 ∧ t.rRes = 0 ∧ t.rFlag = false ∧ t.rTxt = [] ∧ t.rTlen = 0 ∧ t.rStatus = 0 ∧
      t.rErr = 0 ∧
      exec .bstr t = .next (okEnd t 0 false (List.replicate 32 0x30)) ∧
      exec .bones t = .next (okEnd t 0 false []) ∧
      exec .bzeros t = .next (okEnd t 32 false []) ∧
      exec .bsize t = .next (okEnd t 1 false [])

/-- THE MODEL'S CHOICE (log 2, log 4): a reset is one event of the host's list, which stays as it is while
the index moves past the event; from then on commands are taken. -/
def Obligations.ResetIsOneEventOfTheHostList : Prop :=
  ∀ s : State, s.presented = some .reset →
    step s = .next { State.reset with program := s.program, k := s.k + 1 }

/-- R21, R27 to R31, R194: the machine starts with the reset values. -/
def Obligations.ResetStateHoldsResetValues : Prop :=
  State.reset.bv = 0 ∧ State.reset.rRes = 0 ∧ State.reset.rFlag = false ∧ State.reset.rTxt = [] ∧
    State.reset.rTlen = 0 ∧ State.reset.rStatus = 0 ∧ State.reset.rErr = 0

/-- R192: a command presented before the first reset gets no step. -/
def Obligations.CommandBeforeFirstResetIsRefused : Prop :=
  ∀ (s : State) (c : Command), s.wasReset = false → s.presented = some (.command c) →
    step s = .refused .commandBeforeReset

/-- THE MODEL'S CHOICE (log 3): while the host presents nothing the block waits and nothing changes. -/
def Obligations.WaitingChangesNothing : Prop :=
  ∀ s : State, s.presented = none → step s = .next s

/-- R198: every command completes. That every step answers but for a command presented before the first
reset rests on R192 with THE MODEL'S bit wasReset (log 4), on a reset being one event of the host's list
(log 2), and on the waiting step (log 3). -/
def Obligations.EveryCommandCompletes : Prop :=
  (∀ (i : Instr) (s : State), ∃ t, exec i s = .next t) ∧
  ∀ s : State, (∃ t, step s = .next t) ∨
    (s.wasReset = false ∧ (∃ c, s.presented = some (.command c)) ∧
      step s = .refused .commandBeforeReset)

/-! ### Status and errors -/

/-- R172: a command ends DOMAIN exactly in the cases of R172's table, with R173's effect. -/
def Obligations.DomainExactlyByTheTable : Prop :=
  ∀ (i : Instr) (s : State), ∃ t, exec i s = .next t ∧
    (t.rStatus = 2 ↔ outOfDomain i) ∧ (outOfDomain i → t = domainEnd s)

/-- R173: what a command that ends ILLEGAL or DOMAIN leaves: null responses, its status, R_ERR's bit, and
nothing else. -/
def Obligations.FailedCommandHasNoOtherEffect : Prop :=
  ∀ (s t : State) (c : Command), Ready s c → step s = .next t → t.rStatus ≠ 0 →
    (t.rStatus = 1 ∧ t = { illegalEnd s with k := s.k + 1 }) ∨
    (t.rStatus = 2 ∧ t = { domainEnd s with k := s.k + 1 })

/-- R174: the status is ILLEGAL whatever the operands are when the word is illegal; otherwise it is DOMAIN
exactly when a DOMAIN condition of the operation holds, and OK in every other case. -/
def Obligations.StatusPriority : Prop :=
  ∀ (s : State) (c : Command), Ready s c → ∃ t, step s = .next t ∧
    (illegalWord c.cmd → t.rStatus = 1) ∧
    (∀ i, decode c = .ok i → outOfDomain i → t.rStatus = 2) ∧
    (∀ i, decode c = .ok i → ¬ outOfDomain i → t.rStatus = 0)

/-- R31, R175: R_ERR after a command, by its status; and a reset clears it. -/
def Obligations.ErrBitsAreStickyUntilReset : Prop :=
  (∀ (s : State) (c : Command), Ready s c → ∃ t, step s = .next t ∧
    ((t.rStatus = 0 ∧ t.rErr = s.rErr) ∨
     (t.rStatus = 1 ∧ t.rErr = s.rErr ||| 0b01) ∨
     (t.rStatus = 2 ∧ t.rErr = s.rErr ||| 0b10))) ∧
  ∀ s : State, s.presented = some .reset → ∃ t, step s = .next t ∧ t.rErr = 0

/-- R32: every command writes all four response registers, so what they held before does not matter. -/
def Obligations.EveryCommandWritesAllResponses : Prop :=
  ∀ (c : Command) (s : State) (res : Word) (flag : Bool) (txt : List Byte) (status : BitVec 2),
    runCommand c { s with rRes := res, rFlag := flag, rTxt := txt, rStatus := status } =
      runCommand c s

/-- R178, THE MODEL'S PRESENTATION (log 1): the checked step faults exactly after a command that ended
ILLEGAL or DOMAIN, and otherwise is the step. A reset event (log 2), waiting with any status left over
in R_STATUS (log 3) and a command before the first reset (log 4) do not fault. -/
def Obligations.CheckedStepFaultsOnFailedCommands : Prop :=
  (∀ (s : State) (c : Command), Ready s c →
    (checkedStep s = .fault .illegal ↔ illegalWord c.cmd) ∧
    (checkedStep s = .fault .domain ↔ ∃ i, decode c = .ok i ∧ outOfDomain i) ∧
    ∀ t, checkedStep s = .next t ↔ step s = .next t ∧ t.rStatus = 0) ∧
  (∀ s : State, s.presented = some .reset → ∃ t, checkedStep s = .next t ∧ step s = .next t) ∧
  (∀ s : State, s.presented = none → checkedStep s = .next s) ∧
  ∀ (s : State) (c : Command), s.wasReset = false → s.presented = some (.command c) →
    checkedStep s = .refused .commandBeforeReset

/-! ### Whole-machine rules -/

/-- R21: a command that changes BV is BSET, BCLR or BTGL. -/
def Obligations.OnlyMutatorsWriteBv : Prop :=
  ∀ (i : Instr) (s t : State), exec i s = .next t → t.bv ≠ s.bv →
    ∃ idx, i = .bset idx ∨ i = .bclr idx ∨ i = .btgl idx

/-- R3, R21, R120: a radix_converter or bit_packer command neither reads nor writes BV. -/
def Obligations.OtherUnitsIgnoreBv : Prop :=
  ∀ (i : Instr) (s : State) (v : Word), i.coreUnit ≠ .bitvectorRegister →
    ∃ t, exec i s = .next t ∧ t.bv = s.bv ∧ exec i { s with bv := v } = .next { t with bv := v }

/-- R50: repeating a command other than BTGL changes nothing more, and BTGL twice restores BV. -/
def Obligations.RepeatedCommandsAreIdempotent : Prop :=
  (∀ (i : Instr) (s t : State), (∀ idx, i ≠ .btgl idx) → exec i s = .next t → exec i t = .next t) ∧
  ∀ (idx : Word) (s t u : State),
    exec (.btgl idx) s = .next t → exec (.btgl idx) t = .next u → u.bv = s.bv

/-- R27 to R32, R170, R175: every step keeps the response registers' invariant, from every state that
has it. -/
def Obligations.StepKeepsResponseOk : Prop :=
  ∀ s t : State, ResponseOk s → step s = .next t → ResponseOk t

/-- R194: the reset state has the response registers' invariant. IndexOk holds there by R33 (k starts at 0)
and THE MODEL'S CHOICE of an empty list at State.reset (log 2). -/
def Obligations.ResetHasResponseOk : Prop :=
  ResponseOk State.reset ∧ IndexOk State.reset

/-- R33: every step keeps the index within the host's list, and leaves the list alone. That a reset event
takes one place of the list rests on log 2, the waiting step on log 3, and the clause on wasReset, THE
MODEL'S bit, on log 4. -/
def Obligations.StepKeepsIndexOk : Prop :=
  ∀ s t : State, IndexOk s → step s = .next t →
    IndexOk t ∧ t.program = s.program ∧ (s.wasReset = true → t.wasReset = true)

/-- R33, R199: a run of any program from reset completes, with the index at the length of the list and the
response registers as R27 to R32 leave them. The program is loaded from outside (log 2). -/
def Obligations.EveryProgramRunsToItsEnd : Prop :=
  ∀ p : List Command, ∃ t, runProgram p = .next t ∧ t.k = p.length ∧
    t.program = p.map .command ∧ ResponseOk t

/-- R175: R_ERR is 0 after a run from reset exactly if every command of the run ended OK. The program is
loaded from outside (log 2). -/
def Obligations.ErrFreeRunIffEveryCommandOk : Prop :=
  ∀ (p : List Command) (t : State), runProgram p = .next t →
    (errFree t ↔ ∀ n < p.length, ∀ u : State,
      runSteps (n + 1) (loaded (p.map .command)) = .next u → u.rStatus = 0)

/-! ### radix_converter -/

/-- R103: DDEC. -/
def Obligations.DdecGivesDecimalValue : Prop :=
  (∀ c : Command, c.cmd = 0x00000001 → decode c = .ok (.ddec c.tin)) ∧
  ∀ (txt : List Byte) (s : State),
    (numeral decChar txt →
      exec (.ddec txt) s = .next (okEnd s (BitVec.ofNat 32 (numeralSum 10 txt)) false [])) ∧
    (¬ numeral decChar txt → exec (.ddec txt) s = .next (domainEnd s))

/-- R104: DBIN. -/
def Obligations.DbinGivesBinaryValue : Prop :=
  (∀ c : Command, c.cmd = 0x00000002 → decode c = .ok (.dbin c.tin)) ∧
  ∀ (txt : List Byte) (s : State),
    (numeral bitChar txt →
      exec (.dbin txt) s = .next (okEnd s (BitVec.ofNat 32 (numeralSum 2 txt)) false [])) ∧
    (¬ numeral bitChar txt → exec (.dbin txt) s = .next (domainEnd s))

/-- R105: DHEX. -/
def Obligations.DhexGivesHexadecimalValue : Prop :=
  (∀ c : Command, c.cmd = 0x00000003 → decode c = .ok (.dhex c.tin)) ∧
  ∀ (txt : List Byte) (s : State),
    (numeral upperHexChar txt →
      exec (.dhex txt) s = .next (okEnd s (BitVec.ofNat 32 (numeralSum 16 txt)) false [])) ∧
    (¬ numeral upperHexChar txt → exec (.dhex txt) s = .next (domainEnd s))

/-- R106: EBIN. -/
def Obligations.EbinGivesMinimalBinary : Prop :=
  (∀ c : Command, c.cmd = 0x00000004 → decode c = .ok (.ebin c.a)) ∧
  ∀ (n : Word) (s : State),
    (0 ≤ n.toInt → ∃ txt, exec (.ebin n) s = .next (okEnd s 0 false txt) ∧
      numeralSum 2 txt = n.toNat ∧ (∀ c ∈ txt, bitChar c) ∧ minimalNumeral txt ∧
      txt.length = (if n = 0 then 1 else Nat.log2 n.toNat + 1) ∧ txt.length ≤ 31) ∧
    (n.toInt < 0 → exec (.ebin n) s = .next (domainEnd s))

/-- R107: EHEX. -/
def Obligations.EhexGivesMinimalHexadecimal : Prop :=
  (∀ c : Command, c.cmd = 0x00000005 → decode c = .ok (.ehex c.a)) ∧
  ∀ (n : Word) (s : State),
    (0 ≤ n.toInt → ∃ txt, exec (.ehex n) s = .next (okEnd s 0 false txt) ∧
      numeralSum 16 txt = n.toNat ∧ (∀ c ∈ txt, upperHexChar c) ∧ minimalNumeral txt ∧
      txt.length ≤ 8) ∧
    (n.toInt < 0 → exec (.ehex n) s = .next (domainEnd s))

/-- R108: decoding what an encoder gave for a word that is not negative gives the word back. -/
def Obligations.EncodeThenDecodeRoundTrips : Prop :=
  ∀ (n : Word) (s : State), 0 ≤ n.toInt →
    (∃ t, exec (.ebin n) s = .next t ∧ exec (.dbin t.rTxt) t = .next (okEnd t n false [])) ∧
    ∃ t, exec (.ehex n) s = .next t ∧ exec (.dhex t.rTxt) t = .next (okEnd t n false [])

/-- R109: leading zeros that still fit the text input do not change what a decoder does. -/
def Obligations.LeadingZerosAreIgnored : Prop :=
  ∀ (z : Nat) (txt : List Byte) (s : State), txt ≠ [] → z + txt.length ≤ Config.tinMax →
    exec (.ddec (List.replicate z 0x30 ++ txt)) s = exec (.ddec txt) s ∧
    exec (.dbin (List.replicate z 0x30 ++ txt)) s = exec (.dbin txt) s ∧
    exec (.dhex (List.replicate z 0x30 ++ txt)) s = exec (.dhex txt) s

/-- R109: encoding what a decoder gave gives the text back exactly if it has no leading zeros and its
value is at most 2^31-1. -/
def Obligations.DecodeThenEncodeGivesMinimalTextBack : Prop :=
  (∀ (txt : List Byte) (s t : State), numeral bitChar txt → exec (.dbin txt) s = .next t →
    (exec (.ebin t.rRes) t = .next (okEnd t 0 false txt) ↔
      minimalNumeral txt ∧ numeralSum 2 txt ≤ 2 ^ 31 - 1)) ∧
  ∀ (txt : List Byte) (s t : State), numeral upperHexChar txt → exec (.dhex txt) s = .next t →
    (exec (.ehex t.rRes) t = .next (okEnd t 0 false txt) ↔
      minimalNumeral txt ∧ numeralSum 16 txt ≤ 2 ^ 31 - 1)

/-! ### bit_packer -/

/-- R121: SETBYTE. -/
def Obligations.SetbyteReplacesOneByte : Prop :=
  (∀ c : Command, c.cmd = 0x00000010 → decode c = .ok (.setbyte c.a c.b c.c)) ∧
  ∀ (word byteValue index : Word) (s : State),
    (0 ≤ index.toInt → index.toInt ≤ 3 →
      ∃ v, exec (.setbyte word byteValue index) s = .next (okEnd s v false []) ∧
        ∀ k < 4, v.extractLsb' (8 * k) 8 =
          if (k : Int) = index.toInt then byteValue.extractLsb' 0 8
          else word.extractLsb' (8 * k) 8) ∧
    (index.toInt < 0 ∨ 3 < index.toInt →
      exec (.setbyte word byteValue index) s = .next (domainEnd s))

/-- R122: GETNIB. -/
def Obligations.GetnibExtractsOneNibble : Prop :=
  (∀ c : Command, c.cmd = 0x00000011 → decode c = .ok (.getnib c.a c.b)) ∧
  ∀ (word index : Word) (s : State),
    (0 ≤ index.toInt → index.toInt ≤ 7 →
      exec (.getnib word index) s =
        .next (okEnd s (BitVec.ofNat 32 (word.toNat / 16 ^ index.toNat % 16)) false [])) ∧
    (index.toInt < 0 ∨ 7 < index.toInt → exec (.getnib word index) s = .next (domainEnd s))

/-- R123: PACK. -/
def Obligations.PackConcatenatesLowBytes : Prop :=
  (∀ c : Command, c.cmd = 0x00000012 → decode c = .ok (.pack c.a c.b c.c c.d)) ∧
  ∀ (b3 b2 b1 b0 : Word) (s : State),
    exec (.pack b3 b2 b1 b0) s =
      .next (okEnd s (BitVec.ofNat 32 (b3.toNat % 256 * 2 ^ 24 + b2.toNat % 256 * 2 ^ 16 +
        b1.toNat % 256 * 2 ^ 8 + b0.toNat % 256)) false [])

/-- R124: BITRANGE, by both forms the rule gives and by the value of the field. -/
def Obligations.BitrangeSignExtendsTheField : Prop :=
  (∀ c : Command, c.cmd = 0x00000013 → decode c = .ok (.bitrange c.a c.b c.c)) ∧
  ∀ (num start len : Word) (s : State),
    (1 ≤ len.toInt → len.toInt ≤ 31 → 0 ≤ start.toInt → start.toInt + len.toInt ≤ 32 →
      ∃ v, exec (.bitrange num start len) s = .next (okEnd s v false []) ∧
        v = (num <<< (32 - start.toNat - len.toNat)).sshiftRight (32 - len.toNat) ∧
        v.toInt = Int.bmod ((num.toNat / 2 ^ start.toNat % 2 ^ len.toNat : Nat) : Int)
          (2 ^ len.toNat)) ∧
    (len.toInt < 1 ∨ 31 < len.toInt ∨ start.toInt < 0 ∨ 32 < start.toInt + len.toInt →
      exec (.bitrange num start len) s = .next (domainEnd s))

/-- R125: XOR. -/
def Obligations.XorIsExclusiveOr : Prop :=
  (∀ c : Command, c.cmd = 0x00000014 → decode c = .ok (.xor c.a c.b)) ∧
  ∀ (a b : Word) (s : State), exec (.xor a b) s = .next (okEnd s (a ^^^ b) false [])

/-- R126: POW2. -/
def Obligations.PowTwoTestsPositivePowers : Prop :=
  (∀ c : Command, c.cmd = 0x00000015 → decode c = .ok (.pow2 c.a)) ∧
  ∀ (n : Word) (s : State), ∃ f, exec (.pow2 n) s = .next (okEnd s 0 f []) ∧
    (f = true ↔ 1 ≤ n.toInt ∧ n &&& (n - 1) = 0) ∧
    (f = true ↔ ∃ j < 31, n.toNat = 2 ^ j)

/-! ### bitvector_register -/

/-- R141: BSET. -/
def Obligations.BsetSetsOneBit : Prop :=
  (∀ c : Command, c.cmd = 0x00000020 → decode c = .ok (.bset c.a)) ∧
  ∀ (idx : Word) (s : State),
    (0 ≤ idx.toInt → idx.toInt ≤ 31 →
      ∃ v, exec (.bset idx) s = .next (okEnd { s with bv := v } 0 false []) ∧
        ∀ j < 32, v.getLsbD j = (s.bv.getLsbD j || decide (j = idx.toNat))) ∧
    (idx.toInt < 0 ∨ 31 < idx.toInt → exec (.bset idx) s = .next (domainEnd s))

/-- R142: BCLR. -/
def Obligations.BclrClearsOneBit : Prop :=
  (∀ c : Command, c.cmd = 0x00000021 → decode c = .ok (.bclr c.a)) ∧
  ∀ (idx : Word) (s : State),
    (0 ≤ idx.toInt → idx.toInt ≤ 31 →
      ∃ v, exec (.bclr idx) s = .next (okEnd { s with bv := v } 0 false []) ∧
        ∀ j < 32, v.getLsbD j = (s.bv.getLsbD j && !decide (j = idx.toNat))) ∧
    (idx.toInt < 0 ∨ 31 < idx.toInt → exec (.bclr idx) s = .next (domainEnd s))

/-- R143: BTGL. -/
def Obligations.BtglInvertsOneBit : Prop :=
  (∀ c : Command, c.cmd = 0x00000022 → decode c = .ok (.btgl c.a)) ∧
  ∀ (idx : Word) (s : State),
    (0 ≤ idx.toInt → idx.toInt ≤ 31 →
      ∃ v, exec (.btgl idx) s = .next (okEnd { s with bv := v } 0 false []) ∧
        ∀ j < 32, v.getLsbD j = (s.bv.getLsbD j ^^ decide (j = idx.toNat))) ∧
    (idx.toInt < 0 ∨ 31 < idx.toInt → exec (.btgl idx) s = .next (domainEnd s))

/-- R144: BISSET. -/
def Obligations.BissetTestsForOne : Prop :=
  (∀ c : Command, c.cmd = 0x00000023 → decode c = .ok (.bisset c.a)) ∧
  ∀ (idx : Word) (s : State),
    (0 ≤ idx.toInt → idx.toInt < 32 →
      exec (.bisset idx) s = .next (okEnd s 0 (s.bv.getLsbD idx.toNat) [])) ∧
    (32 ≤ idx.toInt → exec (.bisset idx) s = .next (okEnd s 0 false [])) ∧
    (idx.toInt < 0 → exec (.bisset idx) s = .next (domainEnd s))

/-- R145: BISCLR. -/
def Obligations.BisclrTestsForZero : Prop :=
  (∀ c : Command, c.cmd = 0x00000024 → decode c = .ok (.bisclr c.a)) ∧
  ∀ (idx : Word) (s : State),
    (0 ≤ idx.toInt → idx.toInt < 32 →
      exec (.bisclr idx) s = .next (okEnd s 0 (!s.bv.getLsbD idx.toNat) [])) ∧
    (32 ≤ idx.toInt → exec (.bisclr idx) s = .next (okEnd s 0 true [])) ∧
    (idx.toInt < 0 → exec (.bisclr idx) s = .next (domainEnd s))

/-- R146: BSTR. -/
def Obligations.BstrRendersEveryBit : Prop :=
  (∀ c : Command, c.cmd = 0x00000025 → decode c = .ok .bstr) ∧
  ∀ s : State, ∃ txt, exec .bstr s = .next (okEnd s 0 false txt) ∧ txt.length = 32 ∧
    ∀ j < 32, txt[j]? = some (if s.bv.getLsbD (31 - j) then 0x31 else 0x30)

/-- R147: BONES. -/
def Obligations.BonesCountsOnes : Prop :=
  (∀ c : Command, c.cmd = 0x00000026 → decode c = .ok .bones) ∧
  ∀ s : State, exec .bones s = .next (okEnd s
    (BitVec.ofNat 32 (Finset.univ.filter fun j : Fin 32 => s.bv.getLsbD j = true).card) false [])

/-- R148: BZEROS. -/
def Obligations.BzerosCountsZeros : Prop :=
  (∀ c : Command, c.cmd = 0x00000027 → decode c = .ok .bzeros) ∧
  ∀ s : State, exec .bzeros s = .next (okEnd s
    (BitVec.ofNat 32 (Finset.univ.filter fun j : Fin 32 => s.bv.getLsbD j = false).card) false [])

/-- R149: BSIZE. -/
def Obligations.BsizeGivesMinimalWidth : Prop :=
  (∀ c : Command, c.cmd = 0x00000028 → decode c = .ok .bsize) ∧
  ∀ s : State,
    (∀ h, 1 ≤ h → h < 32 → s.bv.getLsbD h = true →
      (∀ j, h < j → j < 32 → s.bv.getLsbD j = false) →
      exec .bsize s = .next (okEnd s (BitVec.ofNat 32 (h + 1)) false [])) ∧
    ((∀ j, 1 ≤ j → j < 32 → s.bv.getLsbD j = false) →
      exec .bsize s = .next (okEnd s 1 false []))

/-- R149: every state is in one of the two cases of the scan, so BSIZE always gives floor(log2 BV) + 1,
and 1 for a zero register. -/
def Obligations.BsizeIsLogarithmPlusOne : Prop :=
  ∀ s : State, exec .bsize s = .next (okEnd s
    (BitVec.ofNat 32 (if s.bv.toNat < 2 then 1 else Nat.log2 s.bv.toNat + 1)) false [])

/-- R150: the two counts of one register sum to 32. -/
def Obligations.OnesAndZerosSumToWidth : Prop :=
  ∀ s : State, ∃ t u, exec .bones s = .next t ∧ exec .bzeros s = .next u ∧
    t.rRes.toNat + u.rRes.toNat = 32

/-- R151: BISSET and BISCLR complement each other inside the register, are both "clear" beyond it, and
are both DOMAIN for a negative index. -/
def Obligations.BitQueriesComplementInsideOnly : Prop :=
  ∀ (idx : Word) (s : State), ∃ t u, exec (.bisset idx) s = .next t ∧
    exec (.bisclr idx) s = .next u ∧
    (0 ≤ idx.toInt → idx.toInt ≤ 31 → (t.rFlag = true ↔ u.rFlag = false)) ∧
    (32 ≤ idx.toInt → t.rFlag = false ∧ u.rFlag = true) ∧
    (idx.toInt < 0 → t.rStatus = 2 ∧ u.rStatus = 2)

/-- R195: a query right after a mutator of the same bit sees the bit as the mutator left it. -/
def Obligations.QueryAfterMutatorSeesTheBit : Prop :=
  ∀ (idx : Word) (s : State), 0 ≤ idx.toInt → idx.toInt ≤ 31 →
    (∃ t u, exec (.bset idx) s = .next t ∧ exec (.bisset idx) t = .next u ∧ u.rFlag = true) ∧
    (∃ t u, exec (.bclr idx) s = .next t ∧ exec (.bisset idx) t = .next u ∧ u.rFlag = false) ∧
    ∃ t u, exec (.btgl idx) s = .next t ∧ exec (.bisset idx) t = .next u ∧
      u.rFlag = !s.bv.getLsbD idx.toNat

/-! ### Assembler -/

/-- R70: an `int` literal gives the pattern of its value mod 2^32 if the value lies in [-2^31, 2^32-1],
and is rejected otherwise. That numerals with leading zeros and "-0" are among the literals is THE MODEL'S
CHOICE (log 9). -/
def Obligations.IntLiteralsGiveTheirPattern : Prop :=
  (∀ ds : List Byte, ds ≠ [] → (∀ c ∈ ds, decChar c) →
    Assembler.readInt ds =
      (if numeralSum 10 ds < 2 ^ 32 then some (BitVec.ofNat 32 (numeralSum 10 ds)) else none) ∧
    Assembler.readInt (0x2D :: ds) =
      (if numeralSum 10 ds ≤ 2 ^ 31 then some (BitVec.ofInt 32 (-(numeralSum 10 ds : Int)))
       else none)) ∧
  ∀ ds : List Byte, ds ≠ [] → (∀ c ∈ ds, upperHexChar (Assembler.upCase c)) →
    Assembler.readInt (0x30 :: 0x78 :: ds) =
      if ds.length ≤ 8 then some (BitVec.ofNat 32 (numeralSum 16 (ds.map Assembler.upCase)))
      else none

/-- R71: every string of bytes can be written as the string operand of a source text, which then is one
line that presents exactly those bytes. The characters that stand for themselves between quotes (the
semicolon among them), the lower-case `\x`, and 0x0A as the line end, which quoteByte escapes, are THE
MODEL'S CHOICES (log 9). -/
def Obligations.StringLiteralsGiveTheirBytes : Prop :=
  ∀ bytes : List Byte,
    Assembler.lex .gap (quoteBytes bytes) = some [.text bytes] ∧
    Assembler.assembleLines (Assembler.ascii "DDEC " ++ quoteBytes bytes) =
      [.ok (.instr (.ddec bytes))] ∧
    Assembler.assembleLines (Assembler.ascii "DBIN " ++ quoteBytes bytes) =
      [.ok (.instr (.dbin bytes))] ∧
    Assembler.assembleLines (Assembler.ascii "DHEX " ++ quoteBytes bytes) =
      [.ok (.instr (.dhex bytes))]

/-- R68, R69, R72: a mnemonic in any case, with the number and the kinds of operands R69 gives it, assembles
to an operation whose command has the code R63 gives that mnemonic as its whole word, the operands in
order and 0 on the inputs the line does not give; with any other operands the line is rejected. No other
first word but `.raw` assembles. That `.raw` in another case of its letters is such another first word is
THE MODEL'S CHOICE (log 9): R68 and R72 do not fix the directive's case. -/
def Obligations.AssembledOperandsStandInOrder : Prop :=
  (∀ (first : List Byte) (ops : List Assembler.Operand), ∀ row ∈ mnemonicRows,
    first.map Assembler.upCase = row.name →
      (operandsFit row ops → ∃ i, Assembler.buildLine first ops = .ok (.instr i) ∧
        encode i = lineInputs row.op ops) ∧
      (¬ operandsFit row ops → Assembler.buildLine first ops = .error .wrongOperands)) ∧
  ∀ (first : List Byte) (ops : List Assembler.Operand), first ≠ Assembler.ascii ".raw" →
    (∀ row ∈ mnemonicRows, first.map Assembler.upCase ≠ row.name) →
      Assembler.buildLine first ops = .error .unknownMnemonic

/-- R72: `.raw` with five `int` operands presents the command with those five inputs and TLEN = 0, whatever
its word; with any other operands the line is rejected. That `.raw` is matched in lower case only is THE
MODEL'S CHOICE (log 9). -/
def Obligations.RawDirectivePresentsItsCommand : Prop :=
  (∀ cmd a b c d : Word,
    (Assembler.buildLine (Assembler.ascii ".raw") [.int cmd, .int a, .int b, .int c, .int d]).map
        Assembler.lineCommand =
      .ok (some { cmd := cmd, a := a, b := b, c := c, d := d, tin := [] })) ∧
  ∀ ops : List Assembler.Operand, ¬ ((intOperands ops).length = 5 ∧ (textOperands ops).length = 0) →
    Assembler.buildLine (Assembler.ascii ".raw") ops = .error .wrongOperands
end

