-- ==== Sys2Proof/Laws/Assembler.lean ====
section
/-!
SUPPORT. What the shared pieces of the assembler can answer: finding a mnemonic, building a line, and
splitting a source text.
-/

namespace Sys2Proof.Assembler

/-- What is found under a key stands in the list with that key. -/
theorem mem_of_lookup_eq_some {α : Type} (l : List (List Byte × α)) (key : List Byte) (v : α)
    (h : l.lookup key = some v) : (key, v) ∈ l := by
  induction l with
  | nil => simp at h
  | cons entry l ih =>
    obtain ⟨name, w⟩ := entry
    rw [List.lookup_cons] at h
    cases hk : key == name with
    | true =>
      simp only [hk, Option.some.injEq] at h
      rw [eq_of_beq hk, h]
      exact List.mem_cons_self
    | false =>
      simp only [hk] at h
      exact List.mem_cons_of_mem _ (ih h)

/-- What a line can be built to: `.raw`'s command, an operation of the mnemonic's entry, or a rejection. -/
theorem buildLine_cases (first : List Byte) (ops : List Operand) :
    (first = ascii ".raw" ∧ ∃ c, buildRaw ops = some c ∧ buildLine first ops = .ok (.raw c)) ∨
    (first = ascii ".raw" ∧ buildRaw ops = none ∧ buildLine first ops = .error .wrongOperands) ∨
    (first ≠ ascii ".raw" ∧ mnemonicTable.lookup (first.map upCase) = none ∧
      buildLine first ops = .error .unknownMnemonic) ∨
    (first ≠ ascii ".raw" ∧ ∃ build, mnemonicTable.lookup (first.map upCase) = some build ∧
      ((∃ i, build ops = some i ∧ buildLine first ops = .ok (.instr i)) ∨
       (build ops = none ∧ buildLine first ops = .error .wrongOperands))) := by
  unfold buildLine
  by_cases hraw : first = ascii ".raw"
  · rw [if_pos hraw]
    cases hops : buildRaw ops with
    | some c => exact .inl ⟨hraw, c, rfl, rfl⟩
    | none => exact .inr (.inl ⟨hraw, rfl, rfl⟩)
  · rw [if_neg hraw]
    cases hfound : mnemonicTable.lookup (first.map upCase) with
    | none => exact .inr (.inr (.inl ⟨hraw, rfl, rfl⟩))
    | some build =>
      refine .inr (.inr (.inr ⟨hraw, build, rfl, ?_⟩))
      cases hops : build ops with
      | some i => exact .inl ⟨i, rfl, by simp [hops]⟩
      | none => exact .inr ⟨rfl, by simp [hops]⟩

/-- A text without the byte 0x0A is one line. -/
theorem splitLines_of_no_line_end (src cur : List Byte) (h : ∀ c ∈ src, c ≠ 0x0A) :
    splitLines src cur = [cur.reverse ++ src] := by
  induction src generalizing cur with
  | nil => simp [splitLines]
  | cons c rest ih =>
    rw [splitLines, if_neg (h c List.mem_cons_self),
      ih _ fun d hd => h d (List.mem_cons_of_mem _ hd)]
    simp

end Sys2Proof.Assembler
end

