-- ==== Sys2Proof/Laws/Decode.lean ====
section
/-!
SUPPORT. What the decoder can answer: one lemma for its errors and one for its operations.
-/

namespace Sys2Proof

/-- The two fields of a word an operation code is widened to (R61, R72). -/
theorem fields_of_setWidth (op : Byte) :
    opField (op.setWidth 32) = op ∧ rsvField (op.setWidth 32) = 0 := by
  have hop := op.isLt
  constructor <;> apply BitVec.eq_of_toNat_eq <;>
    simp [opField, rsvField, BitVec.extractLsb'_toNat, Nat.shiftRight_eq_div_pow] <;> omega

/-- The command word of an encoded operation (R72). -/
theorem encodeWith_fields (op : Byte) (a b c d : Word) (tin : List Byte) :
    opField (encodeWith op a b c d tin).cmd = op ∧ rsvField (encodeWith op a b c d tin).cmd = 0 :=
  fields_of_setWidth op

/-- A word with reserved bits is refused by that name, and only such a word. -/
theorem decode_reserved_iff (c : Command) :
    decode c = .error .reservedBits ↔ rsvField c.cmd ≠ 0 := by
  unfold decode
  split
  · simpa
  · rename_i h
    simp only [h, iff_false]
    unfold decodeOp
    split <;> simp

/-- Without reserved bits the answer is the case table's. -/
theorem decode_of_rsv_zero (c : Command) (h : rsvField c.cmd = 0) :
    decode c = decodeOp (opField c.cmd) c := by
  simp [decode, h]

/-- The table's answer carries the code it was selected by. -/
theorem opcode_of_decodeOp {op : Byte} {c : Command} {i : Instr} (h : decodeOp op c = .ok i) :
    opcode i = op := by
  unfold decodeOp at h
  split at h <;>
    first
    | (cases h; apply BitVec.eq_of_toNat_eq; rename_i hop; rw [hop]; rfl)
    | cases h

end Sys2Proof
end

