-- ==== Sys2Proof/Laws/Operands.lean ====
section
/-!
SUPPORT. What the operand checks answer, and that the encoders' loops end by themselves (log 12).
-/

namespace Sys2Proof.Machine

/-- An index in range is its signed value; anything else is refused. -/
theorem indexUpTo_eq_some {hi : Int} {w : Word} {i : Nat} :
    indexUpTo hi w = some i ↔ w.toInt = i ∧ (i : Int) ≤ hi := by
  unfold indexUpTo sint
  split <;> simp <;> omega

theorem indexUpTo_eq_none {hi : Int} {w : Word} :
    indexUpTo hi w = none ↔ w.toInt < 0 ∨ hi < w.toInt := by
  unfold indexUpTo sint
  split <;> simp <;> omega

theorem queryIndex_eq_some {w : Word} {i : Nat} : queryIndex w = some i ↔ w.toInt = i := by
  unfold queryIndex sint
  split <;> simp <;> omega

theorem queryIndex_eq_none {w : Word} : queryIndex w = none ↔ w.toInt < 0 := by
  unfold queryIndex sint
  split <;> simp <;> omega

theorem bitField_eq_some {start len : Word} {s n : Nat} :
    bitField start len = some (s, n) ↔
      start.toInt = s ∧ len.toInt = n ∧ 1 ≤ n ∧ n ≤ 31 ∧ s + n ≤ 32 := by
  unfold bitField sint
  split <;> simp <;> omega

theorem bitField_eq_none {start len : Word} :
    bitField start len = none ↔
      len.toInt < 1 ∨ 31 < len.toInt ∨ start.toInt < 0 ∨ 32 < start.toInt + len.toInt := by
  unfold bitField sint
  split <;> simp <;> omega

theorem encodable_iff {w : Word} : encodable w = true ↔ 0 ≤ w.toInt := decide_eq_true_iff

/-- The capacity is never below 32 (R10). -/
theorem tinMax_ge : 32 ≤ Config.tinMax := Nat.le_add_left 32 Config.tinSlack

/-- Once every bit is shifted out, more iterations of R106's loop change nothing. -/
theorem binLoop_enough (fuel extra : Nat) (m : Word) (txt : List Byte) (h : m.toNat < 2 ^ fuel) :
    binLoop (fuel + extra) m txt = binLoop fuel m txt := by
  induction fuel generalizing m txt with
  | zero =>
    have hm : m = 0 := by
      apply BitVec.eq_of_toNat_eq
      simpa using h
    subst hm
    cases extra <;> simp [binLoop]
  | succ fuel ih =>
    rw [show fuel + 1 + extra = (fuel + extra) + 1 by omega]
    unfold binLoop
    split
    · refine ih _ _ ?_
      rw [BitVec.toNat_ushiftRight, Nat.shiftRight_eq_div_pow]
      omega
    · rfl

/-- Once every nibble is shifted out, more iterations of R107's loop change nothing. -/
theorem hexLoop_enough (fuel extra : Nat) (m : Word) (txt : List Byte) (h : m.toNat < 16 ^ fuel) :
    hexLoop (fuel + extra) m txt = hexLoop fuel m txt := by
  induction fuel generalizing m txt with
  | zero =>
    have hm : m = 0 := by
      apply BitVec.eq_of_toNat_eq
      simpa using h
    subst hm
    cases extra <;> simp [hexLoop, sint]
  | succ fuel ih =>
    rw [show fuel + 1 + extra = (fuel + extra) + 1 by omega]
    unfold hexLoop
    split
    · refine ih _ _ ?_
      rw [BitVec.toNat_ushiftRight, Nat.shiftRight_eq_div_pow]
      omega
    · rfl

end Sys2Proof.Machine
end

