-- ==== Sys2Proof/Laws/State.lean ====
section
/-!
SUPPORT. One lemma per field per update of State, true by rfl, so that no proof unfolds a record update.
-/

namespace Sys2Proof.Machine

/-! ### The end of a command -/

@[simp] theorem State.respond_bv (s : State) (r : Response) (st : Status) :
    (s.respond r st).bv = s.bv := rfl
@[simp] theorem State.respond_rRes (s : State) (r : Response) (st : Status) :
    (s.respond r st).rRes = r.res := rfl
@[simp] theorem State.respond_rFlag (s : State) (r : Response) (st : Status) :
    (s.respond r st).rFlag = r.flag := rfl
@[simp] theorem State.respond_rTxt (s : State) (r : Response) (st : Status) :
    (s.respond r st).rTxt = r.txt := rfl
@[simp] theorem State.respond_rStatus (s : State) (r : Response) (st : Status) :
    (s.respond r st).rStatus = statusCode st := rfl
@[simp] theorem State.respond_rErr (s : State) (r : Response) (st : Status) :
    (s.respond r st).rErr = errAfter s.rErr st := rfl
@[simp] theorem State.respond_wasReset (s : State) (r : Response) (st : Status) :
    (s.respond r st).wasReset = s.wasReset := rfl
@[simp] theorem State.respond_program (s : State) (r : Response) (st : Status) :
    (s.respond r st).program = s.program := rfl
@[simp] theorem State.respond_k (s : State) (r : Response) (st : Status) :
    (s.respond r st).k = s.k := rfl

/-! ### Writing BV -/

@[simp] theorem State.writeBv_bv (s : State) (v : Word) : (s.writeBv v).bv = v := rfl
@[simp] theorem State.writeBv_rRes (s : State) (v : Word) : (s.writeBv v).rRes = s.rRes := rfl
@[simp] theorem State.writeBv_rFlag (s : State) (v : Word) : (s.writeBv v).rFlag = s.rFlag := rfl
@[simp] theorem State.writeBv_rTxt (s : State) (v : Word) : (s.writeBv v).rTxt = s.rTxt := rfl
@[simp] theorem State.writeBv_rStatus (s : State) (v : Word) : (s.writeBv v).rStatus = s.rStatus := rfl
@[simp] theorem State.writeBv_rErr (s : State) (v : Word) : (s.writeBv v).rErr = s.rErr := rfl
@[simp] theorem State.writeBv_wasReset (s : State) (v : Word) :
    (s.writeBv v).wasReset = s.wasReset := rfl
@[simp] theorem State.writeBv_program (s : State) (v : Word) : (s.writeBv v).program = s.program := rfl
@[simp] theorem State.writeBv_k (s : State) (v : Word) : (s.writeBv v).k = s.k := rfl

/-! ### The host's index -/

@[simp] theorem State.advance_bv (s : State) : s.advance.bv = s.bv := rfl
@[simp] theorem State.advance_rRes (s : State) : s.advance.rRes = s.rRes := rfl
@[simp] theorem State.advance_rFlag (s : State) : s.advance.rFlag = s.rFlag := rfl
@[simp] theorem State.advance_rTxt (s : State) : s.advance.rTxt = s.rTxt := rfl
@[simp] theorem State.advance_rStatus (s : State) : s.advance.rStatus = s.rStatus := rfl
@[simp] theorem State.advance_rErr (s : State) : s.advance.rErr = s.rErr := rfl
@[simp] theorem State.advance_wasReset (s : State) : s.advance.wasReset = s.wasReset := rfl
@[simp] theorem State.advance_program (s : State) : s.advance.program = s.program := rfl
@[simp] theorem State.advance_k (s : State) : s.advance.k = s.k + 1 := rfl

/-! ### Reset -/

@[simp] theorem State.applyReset_bv (s : State) : s.applyReset.bv = 0 := rfl
@[simp] theorem State.applyReset_rRes (s : State) : s.applyReset.rRes = 0 := rfl
@[simp] theorem State.applyReset_rFlag (s : State) : s.applyReset.rFlag = false := rfl
@[simp] theorem State.applyReset_rTxt (s : State) : s.applyReset.rTxt = [] := rfl
@[simp] theorem State.applyReset_rStatus (s : State) : s.applyReset.rStatus = 0 := rfl
@[simp] theorem State.applyReset_rErr (s : State) : s.applyReset.rErr = 0 := rfl
@[simp] theorem State.applyReset_wasReset (s : State) : s.applyReset.wasReset = true := rfl
@[simp] theorem State.applyReset_program (s : State) : s.applyReset.program = s.program := rfl
@[simp] theorem State.applyReset_k (s : State) : s.applyReset.k = s.k := rfl

/-! ### Presenting a command -/

@[simp] theorem State.presenting_bv (s : State) (c : Command) : (s.presenting c).bv = s.bv := rfl
@[simp] theorem State.presenting_rRes (s : State) (c : Command) : (s.presenting c).rRes = s.rRes := rfl
@[simp] theorem State.presenting_rFlag (s : State) (c : Command) : (s.presenting c).rFlag = s.rFlag := rfl
@[simp] theorem State.presenting_rTxt (s : State) (c : Command) : (s.presenting c).rTxt = s.rTxt := rfl
@[simp] theorem State.presenting_rStatus (s : State) (c : Command) :
    (s.presenting c).rStatus = s.rStatus := rfl
@[simp] theorem State.presenting_rErr (s : State) (c : Command) : (s.presenting c).rErr = s.rErr := rfl
@[simp] theorem State.presenting_wasReset (s : State) (c : Command) :
    (s.presenting c).wasReset = true := rfl
@[simp] theorem State.presenting_program (s : State) (c : Command) :
    (s.presenting c).program = placeAt (.command c) s.k s.program := rfl
@[simp] theorem State.presenting_k (s : State) (c : Command) : (s.presenting c).k = s.k := rfl

end Sys2Proof.Machine
end

