-- ==== Sys2Proof/Laws/Ops.lean ====
section
/-!
SUPPORT. For each shared operation, one lemma that says once everything it can do. Later proofs cite
these instead of unfolding the operations.
-/

namespace Sys2Proof.Machine

/-- The response registers of a finished command; R_ERR stays. -/
theorem State.finish_eq (s : State) (r : Response) :
    s.finish r = { s with rRes := r.res, rFlag := r.flag, rTxt := r.txt, rStatus := 0 } := by
  simp [State.finish, State.respond, statusCode, errAfter, errBits]

/-- A failed command leaves null responses and its status, and R_ERR's bit. -/
theorem State.fail_eq (s : State) (st : Status) :
    s.fail st =
      { s with
        rRes := 0, rFlag := false, rTxt := [], rStatus := statusCode st
        rErr := s.rErr ||| errBits st } := rfl

theorem endOk_eq_next {s t : State} {r : Response} (h : endOk s r = .next t) :
    t = { s with rRes := r.res, rFlag := r.flag, rTxt := r.txt, rStatus := 0 } := by
  rw [← State.finish_eq]
  exact (Host.Outcome.next.inj h).symm

theorem raiseDomain_eq_next {s t : State} (h : raiseDomain s = .next t) :
    t = { s with rRes := 0, rFlag := false, rTxt := [], rStatus := 2, rErr := s.rErr ||| 0b10 } :=
  (Host.Outcome.next.inj h).symm

theorem raiseIllegal_eq_next {s t : State} (h : raiseIllegal s = .next t) :
    t = { s with rRes := 0, rFlag := false, rTxt := [], rStatus := 1, rErr := s.rErr ||| 0b01 } :=
  (Host.Outcome.next.inj h).symm

/-- A mutator writes BV for an index in its range, and ends DOMAIN otherwise. -/
theorem mutate_cases (change : Word → Word → Word) (idx : Word) (s : State) :
    (∃ i, mutatorIndex idx = some i ∧
      mutate change idx s = endOk (s.writeBv (change s.bv (singletonMask i))) nullResponse) ∨
    (mutatorIndex idx = none ∧ mutate change idx s = raiseDomain s) := by
  unfold mutate
  cases h : mutatorIndex idx with
  | some i => exact .inl ⟨i, rfl, rfl⟩
  | none => exact .inr ⟨rfl, rfl⟩

/-- A bit query answers a flag for an index that is not negative, and ends DOMAIN otherwise. -/
theorem query_cases (flag : Word → Nat → Bool) (idx : Word) (s : State) :
    (∃ i, queryIndex idx = some i ∧ query flag idx s = endOk s (flagResponse (flag s.bv i))) ∨
    (queryIndex idx = none ∧ query flag idx s = raiseDomain s) := by
  unfold query
  cases h : queryIndex idx with
  | some i => exact .inl ⟨i, rfl, rfl⟩
  | none => exact .inr ⟨rfl, rfl⟩

/-- A decode command gives the positional value of a good numeral, and ends DOMAIN otherwise. -/
theorem decodeNumeral_cases (b : Base) (txt : List Byte) (s : State) :
    (numeralOk Config.tinMax b txt = true ∧
      decodeNumeral b txt s = endOk s (wordResponse (posval b txt))) ∨
    (numeralOk Config.tinMax b txt = false ∧ decodeNumeral b txt s = raiseDomain s) := by
  unfold decodeNumeral
  cases h : numeralOk Config.tinMax b txt with
  | true => exact .inl ⟨rfl, rfl⟩
  | false => exact .inr ⟨rfl, rfl⟩

/-- What a step can be: waiting, a reset, a command taken, or a command refused before the first reset. -/
theorem step_cases (s : State) :
    (s.presented = none ∧ step s = .next s) ∨
    (s.presented = some .reset ∧ step s = .next s.applyReset.advance) ∨
    (∃ c, s.presented = some (.command c) ∧ s.wasReset = true ∧
      step s = advanceNext (runCommand c s)) ∨
    (∃ c, s.presented = some (.command c) ∧ s.wasReset = false ∧
      step s = .refused .commandBeforeReset) := by
  unfold step takeEvent
  cases h : s.presented with
  | none => exact .inl ⟨rfl, rfl⟩
  | some e =>
    cases e with
    | reset => exact .inr (.inl ⟨rfl, rfl⟩)
    | command c =>
      unfold takeCommand
      cases hr : s.wasReset with
      | true => exact .inr (.inr (.inl ⟨c, rfl, rfl, rfl⟩))
      | false => exact .inr (.inr (.inr ⟨c, rfl, rfl, rfl⟩))

/-- What stands at the place an event was put. -/
theorem placeAt_get (e : HostEvent) (n : Nat) (l : List HostEvent) : (placeAt e n l)[n]? = some e := by
  induction n generalizing l with
  | zero => cases l <;> rfl
  | succ n ih => cases l <;> simpa [placeAt] using ih _

/-- Every other place of a list that reaches the index keeps its event. -/
theorem placeAt_get_ne (e : HostEvent) (n m : Nat) (l : List HostEvent) (hm : m ≠ n)
    (hl : n < l.length) : (placeAt e n l)[m]? = l[m]? := by
  induction n generalizing l m with
  | zero =>
    cases l with
    | nil => simp at hl
    | cons h t => cases m with
      | zero => exact absurd rfl hm
      | succ m => rfl
  | succ n ih =>
    cases l with
    | nil => simp at hl
    | cons h t => cases m with
      | zero => rfl
      | succ m => simpa [placeAt] using ih m t (by omega) (by simpa using hl)

/-- A state that presents a command does present it. -/
@[simp] theorem State.presenting_presented (s : State) (c : Command) :
    (s.presenting c).presented = some (.command c) :=
  placeAt_get _ _ _

/-- The step after `withFetchWord` takes exactly the command with those bits. -/
theorem step_withFetchWord (s : State) (nbits w : Nat) :
    step (s.withFetchWord nbits w) =
      advanceNext (runCommand (commandOfBits nbits w) (s.withFetchWord nbits w)) := by
  simp [step, takeEvent, State.withFetchWord, takeCommand]

end Sys2Proof.Machine
end

