-- ==== Sys2Proof/Laws/PerInstr.lean ====
section
/-!
SUPPORT. Statements for all operations, made per operation. EncodeWord: the command word an operation
is encoded to is its operation code with nothing in the reserved bits (R61, R63, R72).
-/

namespace Sys2Proof.Laws.EncodeWord

def Statement (i : Instr) : Prop := opField (encode i).cmd = opcode i ∧ rsvField (encode i).cmd = 0

theorem ddec (txt : List Byte) : Statement (.ddec txt) := encodeWith_fields _ _ _ _ _ _
theorem dbin (txt : List Byte) : Statement (.dbin txt) := encodeWith_fields _ _ _ _ _ _
theorem dhex (txt : List Byte) : Statement (.dhex txt) := encodeWith_fields _ _ _ _ _ _
theorem ebin (n : Word) : Statement (.ebin n) := encodeWith_fields _ _ _ _ _ _
theorem ehex (n : Word) : Statement (.ehex n) := encodeWith_fields _ _ _ _ _ _
theorem setbyte (word byteValue index : Word) : Statement (.setbyte word byteValue index) := encodeWith_fields _ _ _ _ _ _
theorem getnib (word index : Word) : Statement (.getnib word index) := encodeWith_fields _ _ _ _ _ _
theorem pack (b3 b2 b1 b0 : Word) : Statement (.pack b3 b2 b1 b0) := encodeWith_fields _ _ _ _ _ _
theorem bitrange (num start len : Word) : Statement (.bitrange num start len) := encodeWith_fields _ _ _ _ _ _
theorem xor (a b : Word) : Statement (.xor a b) := encodeWith_fields _ _ _ _ _ _
theorem pow2 (n : Word) : Statement (.pow2 n) := encodeWith_fields _ _ _ _ _ _
theorem bset (idx : Word) : Statement (.bset idx) := encodeWith_fields _ _ _ _ _ _
theorem bclr (idx : Word) : Statement (.bclr idx) := encodeWith_fields _ _ _ _ _ _
theorem btgl (idx : Word) : Statement (.btgl idx) := encodeWith_fields _ _ _ _ _ _
theorem bisset (idx : Word) : Statement (.bisset idx) := encodeWith_fields _ _ _ _ _ _
theorem bisclr (idx : Word) : Statement (.bisclr idx) := encodeWith_fields _ _ _ _ _ _
theorem bstr : Statement .bstr := encodeWith_fields _ _ _ _ _ _
theorem bones : Statement .bones := encodeWith_fields _ _ _ _ _ _
theorem bzeros : Statement .bzeros := encodeWith_fields _ _ _ _ _ _
theorem bsize : Statement .bsize := encodeWith_fields _ _ _ _ _ _

end Sys2Proof.Laws.EncodeWord
end

