-- ==== Sys2Proof/Tests/Slice0.lean ====
section
/-!
SUPPORT. The model's own tests: ill-formed terms, words written out from the opcode map, vectors of
95_test_vectors.md, and for each statement with hypotheses a concrete case that meets them.
-/

namespace Sys2Proof.Tests

open Sys2Proof.Machine Sys2Proof.Safety Sys2Proof.Assembler

/-- The next state of an outcome. -/
def after : Host.Outcome State Fault Refusal → Option State
  | .next t => some t
  | .fault _ => none
  | .refused _ => none

/-- The operation a command decodes to. -/
def opOf (c : Command) : Option Instr := (decode c).toOption

/-- A command with a different value on each operand input. -/
def wordCommand (cmd : Word) : Command := { cmd := cmd, a := 1, b := 2, c := 3, d := 4, tin := [0x31] }

/-- The reset state with another BV. -/
def withBv (v : Word) : State := { State.reset with bv := v }

/-- The reset state with a command presented. -/
def presenting (c : Command) : State := State.reset.presenting c

/-- The reset state with RST asserted as the next event, after failed commands and with BV set. -/
def resetNext : State := { withBv 0x12 with rErr := 0b11, rStatus := 2, program := [.reset] }

/-! ### Well-formedness: a text longer than TIN_MAX is ill-formed (R26) -/

theorem test_wf_refuses_ddec : ¬ (Instr.ddec (List.replicate (Config.tinMax + 1) 0x30)).WellFormed := by simp
theorem test_wf_refuses_dbin : ¬ (Instr.dbin (List.replicate (Config.tinMax + 1) 0x30)).WellFormed := by simp
theorem test_wf_refuses_dhex : ¬ (Instr.dhex (List.replicate (Config.tinMax + 1) 0x30)).WellFormed := by simp
theorem test_wf_refuses_command :
    ¬ ({ wordCommand 1 with tin := List.replicate (Config.tinMax + 1) 0x30 } : Command).WellFormed := by simp
theorem test_wf_takes_full_text : (Instr.ddec (List.replicate Config.tinMax 0x30)).WellFormed := by simp

/-! ### Decoding: each operation's word, written out from R63, with its operands from the inputs R63 names -/

theorem test_decode_ddec : opOf (wordCommand 0b00000000000000000000000000000001) = some (.ddec [0x31]) := by decide
theorem test_decode_dbin : opOf (wordCommand 0b00000000000000000000000000000010) = some (.dbin [0x31]) := by decide
theorem test_decode_dhex : opOf (wordCommand 0b00000000000000000000000000000011) = some (.dhex [0x31]) := by decide
theorem test_decode_ebin : opOf (wordCommand 0b00000000000000000000000000000100) = some (.ebin 1) := by decide
theorem test_decode_ehex : opOf (wordCommand 0b00000000000000000000000000000101) = some (.ehex 1) := by decide
theorem test_decode_setbyte : opOf (wordCommand 0b00000000000000000000000000010000) = some (.setbyte 1 2 3) := by decide
theorem test_decode_getnib : opOf (wordCommand 0b00000000000000000000000000010001) = some (.getnib 1 2) := by decide
theorem test_decode_pack : opOf (wordCommand 0b00000000000000000000000000010010) = some (.pack 1 2 3 4) := by decide
theorem test_decode_bitrange : opOf (wordCommand 0b00000000000000000000000000010011) = some (.bitrange 1 2 3) := by decide
theorem test_decode_xor : opOf (wordCommand 0b00000000000000000000000000010100) = some (.xor 1 2) := by decide
theorem test_decode_pow2 : opOf (wordCommand 0b00000000000000000000000000010101) = some (.pow2 1) := by decide
theorem test_decode_bset : opOf (wordCommand 0b00000000000000000000000000100000) = some (.bset 1) := by decide
theorem test_decode_bclr : opOf (wordCommand 0b00000000000000000000000000100001) = some (.bclr 1) := by decide
theorem test_decode_btgl : opOf (wordCommand 0b00000000000000000000000000100010) = some (.btgl 1) := by decide
theorem test_decode_bisset : opOf (wordCommand 0b00000000000000000000000000100011) = some (.bisset 1) := by decide
theorem test_decode_bisclr : opOf (wordCommand 0b00000000000000000000000000100100) = some (.bisclr 1) := by decide
theorem test_decode_bstr : opOf (wordCommand 0b00000000000000000000000000100101) = some (.bstr) := by decide
theorem test_decode_bones : opOf (wordCommand 0b00000000000000000000000000100110) = some (.bones) := by decide
theorem test_decode_bzeros : opOf (wordCommand 0b00000000000000000000000000100111) = some (.bzeros) := by decide
theorem test_decode_bsize : opOf (wordCommand 0b00000000000000000000000000101000) = some (.bsize) := by decide

/-! ### Decoding: the illegal words of 95_test_vectors.md 2.5 -/

theorem test_decode_zero : decode (wordCommand 0) = .error .undefinedOpcode := rfl
theorem test_decode_gaps :
    ([0x06, 0x0F, 0x16, 0x1F, 0x29, 0xFF] : List Word).map (fun w => opOf (wordCommand w)) =
      List.replicate 6 none := by decide
theorem test_decode_reserved_low : (decode (wordCommand 0x00000101)).isOk = false := by decide
theorem test_decode_reserved_high : (decode (wordCommand 0x80000020)).isOk = false := by decide
theorem test_encode_setbyte :
    encode (.setbyte 0xAAA5BBC6 0x17 1) =
      { cmd := 0x00000010, a := 0xAAA5BBC6, b := 0x17, c := 1, d := 0, tin := [] } := rfl
theorem test_encode_dhex :
    encode (.dhex (ascii "A6")) =
      { cmd := 0x00000003, a := 0, b := 0, c := 0, d := 0, tin := [0x41, 0x36] } := by decide

/-! ### Vectors of 95_test_vectors.md, sections 1 and 2 -/

theorem test_ddec_wraps :
    (after (exec (.ddec (ascii "99999999999")) State.reset)).map State.rRes = some 0x4876E7FF := by decide
theorem test_ddec_sign :
    (after (exec (.ddec (ascii "-5")) State.reset)).map State.rStatus = some 2 := by decide
theorem test_dbin_full :
    (after (exec (.dbin (List.replicate 32 0x31)) State.reset)).map State.rRes = some 0xFFFFFFFF := by decide
theorem test_dbin_other_digit :
    (after (exec (.dbin (ascii "102")) State.reset)).map State.rErr = some 0b10 := by decide
theorem test_dhex_mixed :
    (after (exec (.dhex (ascii "123456789")) State.reset)).map State.rRes = some 0x23456789 := by decide
theorem test_dhex_lower_case :
    (after (exec (.dhex (ascii "a6")) State.reset)).map State.rStatus = some 2 := by decide
theorem test_ebin_166 :
    (after (exec (.ebin 166) State.reset)).map State.rTxt = some (ascii "10100110") := by decide
theorem test_ebin_negative :
    (after (exec (.ebin 0x80000000) State.reset)).map State.rStatus = some 2 := by decide
theorem test_ehex_letters :
    (after (exec (.ehex 0x0DEADBEE) State.reset)).map State.rTxt = some (ascii "DEADBEE") := by decide
theorem test_ehex_zero :
    (after (exec (.ehex 0) State.reset)).map State.rTxt = some (ascii "0") := by decide
theorem test_setbyte_source :
    (after (exec (.setbyte 0xAAA5BBC6 0x17 1) State.reset)).map State.rRes = some 0xAAA517C6 := by decide
theorem test_setbyte_masks_value :
    (after (exec (.setbyte 0x12345678 0x1FF 0) State.reset)).map State.rRes = some 0x123456FF := by decide
theorem test_getnib_top :
    (after (exec (.getnib 0x80000000 7) State.reset)).map State.rRes = some 0x00000008 := by decide
theorem test_getnib_beyond :
    (after (exec (.getnib 0x12345678 8) State.reset)).map State.rStatus = some 2 := by decide
theorem test_pack_masks :
    (after (exec (.pack 0x1DE 0xFFFFFFAD 0x2BE 0x3EF) State.reset)).map State.rRes =
      some 0xDEADBEEF := by decide
theorem test_bitrange_sign :
    (after (exec (.bitrange 0x80000000 1 31) State.reset)).map State.rRes = some 0xC0000000 := by decide
theorem test_bitrange_no_wrap :
    (after (exec (.bitrange 0x12345678 0x7FFFFFFF 1) State.reset)).map State.rStatus = some 2 := by decide
theorem test_xor_source :
    (after (exec (.xor 0x12345678 0x87654321) State.reset)).map State.rRes = some 0x95511559 := by decide
theorem test_pow2_top :
    (after (exec (.pow2 0x40000000) State.reset)).map State.rFlag = some true := by decide
theorem test_pow2_negative :
    (after (exec (.pow2 0x80000000) State.reset)).map State.rFlag = some false := by decide
theorem test_bset_31 : (after (exec (.bset 31) State.reset)).map State.bv = some 0x80000000 := by decide
theorem test_bset_32 : after (exec (.bset 32) (withBv 1)) = some (domainEnd (withBv 1)) := by decide
theorem test_bclr_31 : (after (exec (.bclr 31) (withBv 0x80000010))).map State.bv = some 0x10 := by decide
theorem test_btgl_0 : (after (exec (.btgl 0) (withBv 0x10))).map State.bv = some 0x11 := by decide
theorem test_btgl_negative :
    (after (exec (.btgl (-5)) (withBv 0x10))).map State.rErr = some 0b10 := by decide
theorem test_bisset_beyond :
    (after (exec (.bisset 0x7FFFFFFF) (withBv 0xFFFFFFFF))).map State.rFlag = some false := by decide
theorem test_bisset_in : (after (exec (.bisset 4) (withBv 0x10))).map State.rFlag = some true := by decide
theorem test_bisclr_beyond :
    (after (exec (.bisclr 32) (withBv 0xFFFFFFFF))).map State.rFlag = some true := by decide
theorem test_bisclr_negative :
    (after (exec (.bisclr (-1)) (withBv 1))).map State.rStatus = some 2 := by decide
theorem test_bstr_source :
    (after (exec .bstr (withBv 0x10))).map State.rTxt =
      some (ascii "00000000000000000000000000010000") := by decide
theorem test_bones : (after (exec .bones (withBv 0x12))).map State.rRes = some 2 := by decide
theorem test_bzeros : (after (exec .bzeros (withBv 0x12))).map State.rRes = some 30 := by decide
theorem test_bsize_conflict_C1 : (after (exec .bsize (withBv 2))).map State.rRes = some 2 := by decide
theorem test_bsize_top : (after (exec .bsize (withBv 0x80000000))).map State.rRes = some 32 := by decide

/-- With TIN_MAX = 32 a text of 33 digits is out of domain and one of 32 is not (95, 2.1). -/
theorem test_tin_max_32 :
    numeralOk 32 .two (List.replicate 33 0x31) = false ∧
      numeralOk 32 .two (List.replicate 32 0x31) = true := by decide
theorem test_dbin_33_digits : posval .two (List.replicate 33 0x31) = 0xFFFFFFFF := by decide

/-! ### Steps -/

theorem test_step_illegal_after_bset :
    (after (step ({ withBv 8 with rErr := 0b10 }.presenting (wordCommand 0x100)))).map hostView =
      some { res := 0, flag := false, txt := [], status := 1, err := 0b11 } := by decide
theorem test_step_ignores_unused_inputs :
    (after (step (presenting { wordCommand 0x25 with a := 0xFFFFFFFF }))).map State.rTxt =
      some (List.replicate 32 0x30) := by decide
theorem test_step_with_fetch_word :
    (after (step (State.reset.withFetchWord 32 0x27))).map State.rRes = some 32 := by decide
theorem test_step_reset : (after (step resetNext)).map (fun t => (t.bv, t.rErr, t.k)) = some (0, 0, 1) := by
  decide
/-- For CheckedStepFaultsOnFailedCommands: waiting with DOMAIN left over in R_STATUS, and a reset after it. -/
theorem witness_checked_step_waiting :
    (domainEnd State.reset).presented = none ∧ (domainEnd State.reset).rStatus = 2 ∧
      (after (checkedStep (domainEnd State.reset))).isSome = true ∧
      resetNext.rStatus = 2 ∧ (after (checkedStep resetNext)).isSome = true := by decide
theorem test_checked_step_domain :
    checkedStep (presenting { wordCommand 0x20 with a := 32 }) = .fault .domain := rfl

/-! ### Assembler (R68 to R72) -/

theorem test_asm_case : parseLine (ascii "  bset 4 ; set it") = .ok (.instr (.bset 4)) := rfl
theorem test_asm_pack :
    parseLine (ascii "PACK 0xDE, 0xad ,190,0xEF") = .ok (.instr (.pack 0xDE 0xAD 0xBE 0xEF)) := rfl
theorem test_asm_negative : parseLine (ascii "POW2 -8") = parseLine (ascii "POW2 0xFFFFFFF8") := rfl
theorem test_asm_string :
    parseLine (ascii "DDEC \"1;2\\x41\\\"\"") = .ok (.instr (.ddec [0x31, 0x3B, 0x32, 0x41, 0x22])) := rfl
/-- The digits of an escape in either case (log 9). -/
theorem test_asm_escape_digit_case :
    parseLine (ascii "DDEC \"\\xaF\"") = .ok (.instr (.ddec [0xAF])) := rfl
theorem test_asm_raw :
    parseLine (ascii ".raw 0x100, 1, 2, 3, 4") =
      .ok (.raw { cmd := 0x100, a := 1, b := 2, c := 3, d := 4, tin := [] }) := rfl
theorem test_asm_int_bounds :
    readInt (ascii "4294967295") = some 0xFFFFFFFF ∧ readInt (ascii "4294967296") = none ∧
      readInt (ascii "-2147483648") = some 0x80000000 ∧ readInt (ascii "-2147483649") = none ∧
      readInt (ascii "0x") = none ∧ readInt (ascii "0x123456789") = none := by decide
theorem test_asm_wrong_count : parseLine (ascii "XOR 1") = .error .wrongOperands := rfl
theorem test_asm_wrong_kind : parseLine (ascii "EBIN \"1\"") = .error .wrongOperands := rfl
theorem test_asm_program :
    assemble (ascii "; P\nBSET 4\n\nBOGUS 1\nBSTR\n") = [encode (.bset 4), encode .bstr] := by decide

/-! ### Witnesses: a concrete case that meets the hypotheses of each statement that has some -/

theorem witness_DecodeIsExactlyTheOpcodeMap :
    decode (wordCommand 0x10) = .ok (.setbyte 1 2 3) ∧ takesFrom (.setbyte 1 2 3) (wordCommand 0x10) :=
  ⟨rfl, rfl, rfl, rfl⟩
/-- For IllegalWordEndsIllegal, and for ErrBitsAreStickyUntilReset and CheckedStepFaultsOnFailedCommands with an illegal
word; R66's ranges at their ends. -/
theorem witness_IllegalWordEndsIllegal :
    Ready (presenting (wordCommand 0x29)) (wordCommand 0x29) ∧ illegalWord 0x29 ∧
      illegalWord 0x100 ∧ illegalWord 0 ∧ ¬ illegalWord 0x28 ∧ ¬ illegalWord 1 := by decide
theorem witness_IgnoredInputsDoNotMatter :
    decode (wordCommand 0x20) = .ok (.bset 1) ∧
      takesFrom (.bset 1) { wordCommand 0x20 with b := 9, tin := [] } := ⟨rfl, rfl⟩
theorem witness_StepRunsTheDecodedCommand :
    Ready (presenting (wordCommand 0x28)) (wordCommand 0x28) ∧ decode (wordCommand 0x28) = .ok .bsize :=
  ⟨by decide, rfl⟩
/-- For ResetSetsResetValues, ResetIsOneEventOfTheHostList and the reset clause of ErrBitsAreStickyUntilReset. -/
theorem witness_ResetEvent : resetNext.presented = some .reset := by decide
theorem witness_CommandBeforeFirstResetIsRefused :
    ({ presenting (wordCommand 1) with wasReset := false } : State).wasReset = false ∧
      ({ presenting (wordCommand 1) with wasReset := false } : State).presented =
        some (.command (wordCommand 1)) := by decide
theorem witness_WaitingChangesNothing : State.reset.presented = none := by decide
theorem witness_DomainExactlyByTheTable :
    outOfDomain (.bset 32) ∧ ¬ outOfDomain (.bset 31) ∧ outOfDomain (.ddec []) ∧
      ¬ outOfDomain (.ddec [0x39]) := by
  unfold outOfDomain numeral
  decide
/-- For FailedCommandHasNoOtherEffect, and for ErrBitsAreStickyUntilReset and CheckedStepFaultsOnFailedCommands with an
operand out of domain. -/
theorem witness_FailedCommandHasNoOtherEffect :
    Ready (presenting { wordCommand 0x11 with b := 8 }) { wordCommand 0x11 with b := 8 } ∧
      (after (step (presenting { wordCommand 0x11 with b := 8 }))).map State.rStatus = some 2 ∧
      (after (step (presenting (wordCommand 0xFF)))).map State.rStatus = some 1 := by decide
/-- For StatusPriority and CheckedStepFaultsOnFailedCommands, with operands in and out of domain. -/
theorem witness_StatusPriority :
    Ready (presenting (wordCommand 0x11)) (wordCommand 0x11) ∧
      decode (wordCommand 0x11) = .ok (.getnib 1 2) ∧ ¬ outOfDomain (.getnib 1 2) ∧
      decode { wordCommand 0x11 with b := 8 } = .ok (.getnib 1 8) ∧ outOfDomain (.getnib 1 8) :=
  ⟨by decide, rfl, by unfold outOfDomain; decide, rfl, by unfold outOfDomain; decide⟩
theorem witness_OnlyMutatorsWriteBv :
    ∃ t, exec (.bclr 31) (withBv 0x80000000) = .next t ∧ t.bv ≠ (withBv 0x80000000).bv :=
  ⟨_, rfl, by decide⟩
theorem witness_OtherUnitsIgnoreBv : (Instr.xor 1 2).coreUnit ≠ .bitvectorRegister := by decide
theorem witness_RepeatedCommandsAreIdempotent :
    (∀ idx, Instr.bset 31 ≠ .btgl idx) ∧ (∃ t, exec (.bset 31) State.reset = .next t) ∧
      ∃ t u, exec (.btgl 31) State.reset = .next t ∧ exec (.btgl 31) t = .next u :=
  ⟨fun _ h => Instr.noConfusion h, ⟨_, rfl⟩, _, _, rfl, rfl⟩
/-- For StepKeepsResponseOk and StepKeepsIndexOk, with a failed command's state and a state that presents a command. -/
theorem witness_ResponseOk :
    ResponseOk (domainEnd (withBv 1)) ∧ IndexOk (presenting (wordCommand 0x28)) ∧
      (∃ t, step (domainEnd (withBv 1)) = .next t) ∧
      ∃ t, step (presenting (wordCommand 0x28)) = .next t :=
  ⟨⟨by decide, by decide, by decide, by decide, by decide, by decide, by decide, by decide⟩, by decide,
    ⟨_, rfl⟩, _, rfl⟩
theorem witness_ErrFreeRunIffEveryCommandOk :
    (∃ t, runProgram [wordCommand 0x28] = .next t ∧ errFree t) ∧
      ∃ t, runProgram [wordCommand 0x00] = .next t ∧ ¬ errFree t :=
  ⟨⟨_, rfl, by decide⟩, _, rfl, by decide⟩
theorem witness_DdecGivesDecimalValue :
    numeral decChar [0x39] ∧ ¬ numeral decChar [] ∧ ¬ numeral decChar [0x3A] := by
  unfold numeral
  decide
theorem witness_DbinGivesBinaryValue : numeral bitChar [0x30] ∧ ¬ numeral bitChar [0x32] := by
  unfold numeral
  decide
theorem witness_DhexGivesHexadecimalValue :
    numeral upperHexChar [0x46] ∧ ¬ numeral upperHexChar [0x47] := by
  unfold numeral
  decide
/-- For the three decoders: a text that fills the text input, and one that is too long by one byte. -/
theorem witness_numeral_full_capacity :
    numeral bitChar (List.replicate Config.tinMax 0x31) ∧
      ¬ numeral bitChar (List.replicate (Config.tinMax + 1) 0x31) := by
  have h := tinMax_ge
  refine ⟨⟨?_, by simp, fun c hc => ?_⟩, fun h => by simpa using h.2.1⟩
  · intro h0
    have := congrArg List.length h0
    simp only [List.length_replicate, List.length_nil] at this
    omega
  · rw [List.eq_of_mem_replicate hc]
    decide
/-- For EbinGivesMinimalBinary, EhexGivesMinimalHexadecimal and EncodeThenDecodeRoundTrips. -/
theorem witness_encoders :
    0 ≤ (0 : Word).toInt ∧ 0 ≤ (0x7FFFFFFF : Word).toInt ∧ (0x80000000 : Word).toInt < 0 := by decide
theorem witness_LeadingZerosAreIgnored :
    ([0x31] : List Byte) ≠ [] ∧ 31 + ([0x31] : List Byte).length ≤ Config.tinMax := by decide
theorem witness_DecodeThenEncodeGivesMinimalTextBack :
    (numeral bitChar [0x31] ∧ ∃ t, exec (.dbin [0x31]) State.reset = .next t) ∧
      minimalNumeral [0x31] ∧ numeralSum 2 [0x31] ≤ 2 ^ 31 - 1 ∧ ¬ minimalNumeral [0x30, 0x31] ∧
      numeral upperHexChar [0x41] ∧ ∃ t, exec (.dhex [0x41]) State.reset = .next t :=
  ⟨⟨by unfold numeral; decide, _, rfl⟩, by decide, by decide, by decide, by unfold numeral; decide, _, rfl⟩
theorem witness_SetbyteReplacesOneByte :
    0 ≤ (3 : Word).toInt ∧ (3 : Word).toInt ≤ 3 ∧ 3 < (4 : Word).toInt ∧ (-1 : Word).toInt < 0 := by decide
theorem witness_GetnibExtractsOneNibble :
    0 ≤ (7 : Word).toInt ∧ (7 : Word).toInt ≤ 7 ∧ 7 < (8 : Word).toInt := by decide
theorem witness_BitrangeSignExtendsTheField :
    (1 ≤ (31 : Word).toInt ∧ (31 : Word).toInt ≤ 31 ∧ 0 ≤ (1 : Word).toInt ∧
        (1 : Word).toInt + (31 : Word).toInt ≤ 32) ∧
      (0 : Word).toInt < 1 ∧ 31 < (32 : Word).toInt ∧ (-1 : Word).toInt < 0 ∧
        32 < (2 : Word).toInt + (31 : Word).toInt := by decide
/-- For BsetSetsOneBit, BclrClearsOneBit, BtglInvertsOneBit and QueryAfterMutatorSeesTheBit. -/
theorem witness_mutators :
    0 ≤ (31 : Word).toInt ∧ (31 : Word).toInt ≤ 31 ∧ 31 < (32 : Word).toInt ∧ (-1 : Word).toInt < 0 := by
  decide
/-- For BissetTestsForOne, BisclrTestsForZero and BitQueriesComplementInsideOnly. -/
theorem witness_queries :
    (0 ≤ (31 : Word).toInt ∧ (31 : Word).toInt < 32) ∧ 32 ≤ (32 : Word).toInt ∧ (-1 : Word).toInt < 0 := by
  decide
theorem witness_BsizeGivesMinimalWidth :
    ((withBv 0x80000001).bv.getLsbD 31 = true ∧
        ∀ j < 32, 31 < j → (withBv 0x80000001).bv.getLsbD j = false) ∧
      ∀ j < 32, 1 ≤ j → (withBv 1).bv.getLsbD j = false := by decide
theorem witness_IntLiteralsGiveTheirPattern :
    (∀ c ∈ ascii "4294967296", decChar c) ∧ (∀ c ∈ ascii "2147483649", decChar c) ∧
      ∀ c ∈ ascii "dEADbEEf9", upperHexChar (upCase c) := by decide
theorem witness_AssembledOperandsStandInOrder :
    (∃ row ∈ mnemonicRows, (ascii "bitrange").map upCase = row.name ∧
      operandsFit row [.int 1, .int 2, .int 3] ∧ ¬ operandsFit row [.int 1, .int 2] ∧
      ¬ operandsFit row [.int 1, .int 2, .int 3, .text []]) ∧
      ascii "BITS" ≠ ascii ".raw" ∧ ∀ row ∈ mnemonicRows, (ascii "BITS").map upCase ≠ row.name :=
  ⟨⟨⟨ascii "BITRANGE", 0x13, 3, 0⟩, by decide, by decide, by decide, by decide, by decide⟩, by decide,
    by decide⟩
theorem witness_RawDirectivePresentsItsCommand :
    ¬ ((intOperands [.int 1, .int 2, .int 3, .int 4]).length = 5 ∧
      (textOperands [.int 1, .int 2, .int 3, .int 4]).length = 0) := by decide
/-- A line feed between quotes ends the line, and its escape does not (log 9). -/
theorem test_asm_line_feed_in_string :
    assembleLines (ascii "DDEC " ++ [0x22, 0x0A, 0x22]) = [.error .malformed, .error .malformed] ∧
      assembleLines (ascii "DDEC " ++ quoteBytes [0x0A]) = [.ok (.instr (.ddec [0x0A]))] := ⟨rfl, rfl⟩

end Sys2Proof.Tests
end

section
/-!
PROOFS about the scope (00_scope.md). The radix_converter and the bit_packer compute their answer from the
operands alone (R3, R120): each of their operations ends every state with the same response and status.
-/

namespace Sys2Proof.Machine

/-- An operation that reads no state: one response and one status end it in every state. -/
def AnswersFromOperands (op : State → Host.Outcome State Fault Refusal) : Prop :=
  ∃ (r : Response) (st : Status), ∀ s, op s = .next (s.respond r st)

/-! ### The two ends of a command -/

theorem endOk_answersFromOperands (r : Response) : AnswersFromOperands (endOk · r) :=
  ⟨r, .ok, fun _ => rfl⟩

theorem raiseDomain_answersFromOperands : AnswersFromOperands raiseDomain :=
  ⟨nullResponse, .domain, fun _ => rfl⟩

/-- A check that reads no state decides between the two ends (R101, R106, R107). -/
theorem checked_answersFromOperands (check : Bool) (r : Response) :
    AnswersFromOperands fun s => if check then endOk s r else raiseDomain s := by
  cases check with
  | true => exact endOk_answersFromOperands r
  | false => exact raiseDomain_answersFromOperands

/-! ### The radix_converter -/

theorem decodeNumeral_answersFromOperands (b : Base) (txt : List Byte) :
    AnswersFromOperands (decodeNumeral b txt) :=
  checked_answersFromOperands (numeralOk Config.tinMax b txt) (wordResponse (posval b txt))

theorem execEbin_answersFromOperands (n : Word) : AnswersFromOperands (execEbin n) :=
  checked_answersFromOperands (encodable n) (textResponse (binNumeral n))

theorem execEhex_answersFromOperands (n : Word) : AnswersFromOperands (execEhex n) :=
  checked_answersFromOperands (encodable n) (textResponse (hexNumeral n))

/-! ### The bit_packer -/

theorem execSetbyte_answersFromOperands (word byteValue index : Word) :
    AnswersFromOperands (execSetbyte word byteValue index) := by
  unfold execSetbyte
  cases byteIndex index with
  | some k => exact endOk_answersFromOperands _
  | none => exact raiseDomain_answersFromOperands

theorem execGetnib_answersFromOperands (word index : Word) :
    AnswersFromOperands (execGetnib word index) := by
  unfold execGetnib
  cases nibbleIndex index with
  | some k => exact endOk_answersFromOperands _
  | none => exact raiseDomain_answersFromOperands

theorem execBitrange_answersFromOperands (num start len : Word) :
    AnswersFromOperands (execBitrange num start len) := by
  unfold execBitrange
  cases bitField start len with
  | some field => exact endOk_answersFromOperands _
  | none => exact raiseDomain_answersFromOperands

/-! ### The two units together -/

/-- R3, R120: outside the bitvector_register an operation reads no state. -/
theorem exec_answersFromOperands {i : Instr} (h : i.coreUnit ≠ .bitvectorRegister) :
    AnswersFromOperands (exec i) := by
  cases i with
  | ddec txt => exact decodeNumeral_answersFromOperands .ten txt
  | dbin txt => exact decodeNumeral_answersFromOperands .two txt
  | dhex txt => exact decodeNumeral_answersFromOperands .sixteen txt
  | ebin n => exact execEbin_answersFromOperands n
  | ehex n => exact execEhex_answersFromOperands n
  | setbyte word byteValue index => exact execSetbyte_answersFromOperands word byteValue index
  | getnib word index => exact execGetnib_answersFromOperands word index
  | bitrange num start len => exact execBitrange_answersFromOperands num start len
  | pack | xor | pow2 => exact endOk_answersFromOperands _
  | bset | bclr | btgl | bisset | bisclr | bstr | bones | bzeros | bsize => exact absurd rfl h

/-- Settles O20: the common response and status give both runs, and writing them passes BV by. -/
theorem otherUnitsIgnoreBv : Obligations.OtherUnitsIgnoreBv := by
  intro i s v hunit
  obtain ⟨r, st, hrun⟩ := exec_answersFromOperands hunit
  exact ⟨s.respond r st, hrun s, State.respond_bv s r st, hrun { s with bv := v }⟩

end Sys2Proof.Machine
end

section
/-!
PROOFS about the state (10_state.md). A command ends every state by one effect: a value for BV, a response
and a status, which depend on the state through BV alone. What the response registers then hold, what R_ERR
records and where the host's index stands all follow from the form of that effect.
-/

namespace Sys2Proof.Machine

open Sys2Proof.Safety

/-! ### The effect that ends a command -/

/-- What a command leaves: BV, the response registers and the status that ends it. -/
structure Effect where
  bv : Word
  response : Response
  status : Status

/-- The state after a command with this effect. -/
def State.endWith (s : State) (e : Effect) : State := (s.writeBv e.bv).respond e.response e.status

@[simp] theorem State.endWith_bv (s : State) (e : Effect) : (s.endWith e).bv = e.bv := rfl
@[simp] theorem State.endWith_rRes (s : State) (e : Effect) :
    (s.endWith e).rRes = e.response.res := rfl
@[simp] theorem State.endWith_rFlag (s : State) (e : Effect) :
    (s.endWith e).rFlag = e.response.flag := rfl
@[simp] theorem State.endWith_rTxt (s : State) (e : Effect) :
    (s.endWith e).rTxt = e.response.txt := rfl
@[simp] theorem State.endWith_rStatus (s : State) (e : Effect) :
    (s.endWith e).rStatus = statusCode e.status := rfl
@[simp] theorem State.endWith_rErr (s : State) (e : Effect) :
    (s.endWith e).rErr = errAfter s.rErr e.status := rfl
@[simp] theorem State.endWith_wasReset (s : State) (e : Effect) :
    (s.endWith e).wasReset = s.wasReset := rfl
@[simp] theorem State.endWith_program (s : State) (e : Effect) :
    (s.endWith e).program = s.program := rfl
@[simp] theorem State.endWith_k (s : State) (e : Effect) : (s.endWith e).k = s.k := rfl

/-- R27, R28, R29, R32: at most one part of the response is not null, and the text is at most 32 digit
characters. -/
structure Response.Proper (r : Response) : Prop where
  textLength : r.txt.length ≤ 32
  textDigits : r.txt.all (isDigit .sixteen) = true
  wordAlone : r.res ≠ 0 → r.flag = false ∧ r.txt = []
  flagAlone : r.flag = true → r.res = 0 ∧ r.txt = []

/-- R173: beside a proper response, a failed command's response is null. -/
structure Effect.Proper (e : Effect) : Prop where
  response : e.response.Proper
  failedNull : e.status ≠ .ok → e.response = nullResponse

theorem wordResponse_proper (v : Word) : (wordResponse v).Proper :=
  ⟨Nat.zero_le 32, rfl, fun _ => ⟨rfl, rfl⟩, nofun⟩

theorem flagResponse_proper (f : Bool) : (flagResponse f).Proper :=
  ⟨Nat.zero_le 32, rfl, fun h => absurd rfl h, fun _ => ⟨rfl, rfl⟩⟩

theorem nullResponse_proper : nullResponse.Proper := wordResponse_proper 0

theorem Effect.proper_of_ok (v : Word) {r : Response} (hr : r.Proper) : Effect.Proper ⟨v, r, .ok⟩ :=
  ⟨hr, fun h => absurd rfl h⟩

theorem Effect.proper_of_null (v : Word) (st : Status) : Effect.Proper ⟨v, nullResponse, st⟩ :=
  ⟨nullResponse_proper, fun _ => rfl⟩

/-! ### The texts of EBIN, EHEX and BSTR -/

theorem isDigit_binChar (bit : Bool) : isDigit .sixteen (binChar bit) = true := by
  cases bit <;> rfl

theorem isDigit_hexChar (v : BitVec 4) : isDigit .sixteen (hexChar v) = true := by
  revert v
  decide

/-- At most `n` characters, all of them digits (R11, R29). -/
def DigitText (n : Nat) (txt : List Byte) : Prop :=
  txt.length ≤ n ∧ txt.all (isDigit .sixteen) = true

theorem DigitText.nil : DigitText 0 [] := ⟨le_rfl, rfl⟩

theorem DigitText.cons {n : Nat} {c : Byte} {txt : List Byte} (hc : isDigit .sixteen c = true)
    (h : DigitText n txt) : DigitText (n + 1) (c :: txt) :=
  ⟨Nat.succ_le_succ h.1, by rw [List.all_cons, hc, h.2, Bool.and_self]⟩

theorem DigitText.mono {n m : Nat} {txt : List Byte} (h : DigitText n txt) (hnm : n ≤ m) :
    DigitText m txt :=
  ⟨h.1.trans hnm, h.2⟩

/-- R106's loop prepends at most one digit per iteration. -/
theorem binLoop_digitText {n : Nat} {txt : List Byte} (fuel : Nat) (m : Word)
    (h : DigitText n txt) : DigitText (fuel + n) (binLoop fuel m txt) := by
  induction fuel generalizing n m txt with
  | zero => exact h.mono (Nat.le_add_left n 0)
  | succ fuel ih =>
    unfold binLoop
    split
    · exact (ih _ (h.cons (isDigit_binChar _))).mono (by omega)
    · exact h.mono (by omega)

/-- R107's loop prepends at most one digit per iteration. -/
theorem hexLoop_digitText {n : Nat} {txt : List Byte} (fuel : Nat) (m : Word)
    (h : DigitText n txt) : DigitText (fuel + n) (hexLoop fuel m txt) := by
  induction fuel generalizing n m txt with
  | zero => exact h.mono (Nat.le_add_left n 0)
  | succ fuel ih =>
    unfold hexLoop
    split
    · exact (ih _ (h.cons (isDigit_hexChar _))).mono (by omega)
    · exact h.mono (by omega)

theorem binNumeral_digitText (n : Word) : DigitText 32 (binNumeral n) := by
  unfold binNumeral
  split
  · exact ⟨by decide, rfl⟩
  · exact binLoop_digitText 32 n .nil

theorem hexNumeral_digitText (n : Word) : DigitText 32 (hexNumeral n) := by
  unfold hexNumeral
  split
  · exact ⟨by decide, rfl⟩
  · exact (hexLoop_digitText 8 n .nil).mono (by decide)

/-- R146's text fills R11's 32 bytes exactly. -/
theorem bitString_digitText (w : Word) : DigitText 32 (bitString w) := by
  simp [DigitText, bitString, isDigit_binChar]

theorem textResponse_proper {txt : List Byte} (h : DigitText 32 txt) : (textResponse txt).Proper :=
  ⟨h.1, h.2, fun h => absurd rfl h, nofun⟩

/-! ### Every command ends by a proper effect that depends on BV alone -/

/-- The operation ends every state by a proper effect that reads BV and nothing else. -/
def EndsProperly (op : State → Host.Outcome State Fault Refusal) : Prop :=
  ∃ e : Word → Effect, (∀ bv, (e bv).Proper) ∧ ∀ s, op s = .next (s.endWith (e s.bv))

theorem endOk_endsProperly {r : Word → Response} (hr : ∀ bv, (r bv).Proper) :
    EndsProperly fun s => endOk s (r s.bv) :=
  ⟨fun bv => ⟨bv, r bv, .ok⟩, fun bv => Effect.proper_of_ok bv (hr bv), fun _ => rfl⟩

theorem wordOfBv_endsProperly (v : Word → Word) :
    EndsProperly fun s => endOk s (wordResponse (v s.bv)) :=
  endOk_endsProperly fun bv => wordResponse_proper (v bv)

theorem raiseDomain_endsProperly : EndsProperly raiseDomain :=
  ⟨fun bv => ⟨bv, nullResponse, .domain⟩, fun bv => Effect.proper_of_null bv _, fun _ => rfl⟩

theorem raiseIllegal_endsProperly : EndsProperly raiseIllegal :=
  ⟨fun bv => ⟨bv, nullResponse, .illegal⟩, fun bv => Effect.proper_of_null bv _, fun _ => rfl⟩

theorem checked_endsProperly (check : Bool) {r : Response} (hr : r.Proper) :
    EndsProperly fun s => if check then endOk s r else raiseDomain s := by
  cases check with
  | true => exact endOk_endsProperly fun _ => hr
  | false => exact raiseDomain_endsProperly

theorem mutate_endsProperly (change : Word → Word → Word) (idx : Word) :
    EndsProperly (mutate change idx) := by
  unfold mutate
  cases mutatorIndex idx with
  | some i =>
    exact ⟨fun bv => ⟨change bv (singletonMask i), nullResponse, .ok⟩,
      fun _ => Effect.proper_of_null _ _, fun _ => rfl⟩
  | none => exact raiseDomain_endsProperly

theorem query_endsProperly (flag : Word → Nat → Bool) (idx : Word) :
    EndsProperly (query flag idx) := by
  unfold query
  cases queryIndex idx with
  | some i => exact endOk_endsProperly fun bv => flagResponse_proper (flag bv i)
  | none => exact raiseDomain_endsProperly

theorem decodeNumeral_endsProperly (b : Base) (txt : List Byte) :
    EndsProperly (decodeNumeral b txt) :=
  checked_endsProperly (numeralOk Config.tinMax b txt) (wordResponse_proper (posval b txt))

theorem execSetbyte_endsProperly (word byteValue index : Word) :
    EndsProperly (execSetbyte word byteValue index) := by
  unfold execSetbyte
  cases byteIndex index with
  | some k => exact endOk_endsProperly fun _ => wordResponse_proper _
  | none => exact raiseDomain_endsProperly

theorem execGetnib_endsProperly (word index : Word) : EndsProperly (execGetnib word index) := by
  unfold execGetnib
  cases nibbleIndex index with
  | some k => exact endOk_endsProperly fun _ => wordResponse_proper _
  | none => exact raiseDomain_endsProperly

theorem execBitrange_endsProperly (num start len : Word) :
    EndsProperly (execBitrange num start len) := by
  unfold execBitrange
  cases bitField start len with
  | some field => exact endOk_endsProperly fun _ => wordResponse_proper _
  | none => exact raiseDomain_endsProperly

theorem exec_endsProperly (i : Instr) : EndsProperly (exec i) := by
  cases i with
  | ddec txt => exact decodeNumeral_endsProperly .ten txt
  | dbin txt => exact decodeNumeral_endsProperly .two txt
  | dhex txt => exact decodeNumeral_endsProperly .sixteen txt
  | ebin n => exact checked_endsProperly (encodable n) (textResponse_proper (binNumeral_digitText n))
  | ehex n => exact checked_endsProperly (encodable n) (textResponse_proper (hexNumeral_digitText n))
  | setbyte word byteValue index => exact execSetbyte_endsProperly word byteValue index
  | getnib word index => exact execGetnib_endsProperly word index
  | bitrange num start len => exact execBitrange_endsProperly num start len
  | pack | xor => exact wordOfBv_endsProperly fun _ => _
  | pow2 n => exact endOk_endsProperly fun _ => flagResponse_proper (powerOfTwoFlag n)
  | bset idx => exact mutate_endsProperly (fun bv m => bv ||| m) idx
  | bclr idx => exact mutate_endsProperly (fun bv m => bv &&& ~~~m) idx
  | btgl idx => exact mutate_endsProperly (fun bv m => bv ^^^ m) idx
  | bisset idx | bisclr idx => exact query_endsProperly _ idx
  | bstr => exact endOk_endsProperly fun bv => textResponse_proper (bitString_digitText bv)
  | bones => exact wordOfBv_endsProperly fun bv => BitVec.ofNat 32 (popcount bv)
  | bzeros => exact wordOfBv_endsProperly fun bv => BitVec.ofNat 32 (32 - popcount bv)
  | bsize => exact wordOfBv_endsProperly fun bv => BitVec.ofNat 32 (sizeFrom bv 31)

/-- R171: a word that selects no operation ends by an effect of its own. -/
theorem runCommand_endsProperly (c : Command) : EndsProperly (runCommand c) := by
  unfold runCommand
  cases decode c with
  | ok i => exact exec_endsProperly i
  | error _ => exact raiseIllegal_endsProperly

/-! ### What a step can do -/

/-- A command that can be taken is run, and the host's index advances. -/
theorem step_of_ready {s : State} {c : Command} (h : Ready s c) :
    step s = advanceNext (runCommand c s) := by
  obtain ⟨hreset, hpres⟩ := h
  simp [step, takeEvent, takeCommand, hreset, hpres]

theorem step_ready_endsProperly {s : State} {c : Command} (h : Ready s c) :
    ∃ e : Effect, e.Proper ∧ step s = .next (s.endWith e).advance := by
  obtain ⟨e, he, hrun⟩ := runCommand_endsProperly c
  exact ⟨e s.bv, he s.bv, by rw [step_of_ready h, hrun]; rfl⟩

/-- A step that answers waited, took a reset, or took a command that ended by a proper effect. -/
theorem step_next_cases {s t : State} (h : step s = .next t) :
    t = s ∨
    (s.presented = some .reset ∧ t = s.applyReset.advance) ∨
    ∃ c e, Ready s c ∧ Effect.Proper e ∧ t = (s.endWith e).advance := by
  rcases step_cases s with ⟨-, hs⟩ | ⟨hp, hs⟩ | ⟨c, hp, hr, -⟩ | ⟨c, -, -, hs⟩
  · exact .inl (Host.Outcome.next.inj (h.symm.trans hs))
  · exact .inr (.inl ⟨hp, Host.Outcome.next.inj (h.symm.trans hs)⟩)
  · obtain ⟨e, he, hs⟩ := step_ready_endsProperly ⟨hr, hp⟩
    exact .inr (.inr ⟨c, e, ⟨hr, hp⟩, he, Host.Outcome.next.inj (h.symm.trans hs)⟩)
  · exact nomatch h.symm.trans hs

/-! ### The invariant of the response registers -/

theorem statusCode_ne_three (st : Status) : statusCode st ≠ 3 := by
  cases st <;> decide

theorem statusCode_eq_zero_iff {st : Status} : statusCode st = 0 ↔ st = .ok := by
  cases st <;> decide

theorem statusCode_eq_one_iff {st : Status} : statusCode st = 1 ↔ st = .illegal := by
  cases st <;> decide

theorem statusCode_eq_two_iff {st : Status} : statusCode st = 2 ↔ st = .domain := by
  cases st <;> decide

/-- R175: a failed status sets its own bit of R_ERR. -/
theorem errAfter_illegal_seen (err : BitVec 2) : (errAfter err .illegal).getLsbD 0 = true := by
  simp [errAfter, errBits]

theorem errAfter_domain_seen (err : BitVec 2) : (errAfter err .domain).getLsbD 1 = true := by
  simp [errAfter, errBits]

theorem responseOk_endWith (s : State) {e : Effect} (he : e.Proper) : ResponseOk (s.endWith e) where
  textLength := he.response.textLength
  textDigits := he.response.textDigits
  statusDefined := statusCode_ne_three e.status
  wordAlone := he.response.wordAlone
  flagAlone := he.response.flagAlone
  failedNull hst := by
    have hnull : e.response = nullResponse :=
      he.failedNull fun hok => hst (statusCode_eq_zero_iff.mpr hok)
    simp [hnull, nullResponse]
  illegalSeen hst := by
    rw [State.endWith_rErr, statusCode_eq_one_iff.mp hst]
    exact errAfter_illegal_seen s.rErr
  domainSeen hst := by
    rw [State.endWith_rErr, statusCode_eq_two_iff.mp hst]
    exact errAfter_domain_seen s.rErr

theorem responseOk_advance {s : State} (h : ResponseOk s) : ResponseOk s.advance := { h with }

/-- R194: the invariant speaks of no element that the host's list or index reaches, so every program
starts with it. -/
theorem responseOk_loaded (p : List HostEvent) : ResponseOk (loaded p) := by
  constructor <;> simp [loaded, State.reset, State.rTlen]

theorem responseOk_applyReset (s : State) : ResponseOk s.applyReset :=
  { responseOk_loaded s.program with }

/-- Settles O22: waiting keeps the registers, a reset clears them, and a command writes all of them. -/
theorem stepKeepsResponseOk : Obligations.StepKeepsResponseOk := by
  intro s t hok hstep
  rcases step_next_cases hstep with rfl | ⟨-, rfl⟩ | ⟨c, e, -, he, rfl⟩
  · exact hok
  · exact responseOk_advance (responseOk_applyReset s)
  · exact responseOk_advance (responseOk_endWith s he)

/-! ### R_ERR -/

/-- Settles O16: R_ERR takes the bit of the status that ends the command. -/
theorem errBitsAreStickyUntilReset : Obligations.ErrBitsAreStickyUntilReset := by
  refine ⟨fun s c hready => ?_, fun s hpres => ?_⟩
  · obtain ⟨⟨v, r, st⟩, -, hstep⟩ := step_ready_endsProperly hready
    refine ⟨_, hstep, ?_⟩
    cases st with
    | ok => exact .inl ⟨rfl, BitVec.or_zero⟩
    | illegal => exact .inr (.inl ⟨rfl, rfl⟩)
    | domain => exact .inr (.inr ⟨rfl, rfl⟩)
  · exact ⟨s.applyReset.advance, by simp [step, takeEvent, hpres], rfl⟩

/-! ### BV -/

/-- The operation leaves BV alone wherever it answers. -/
def KeepsBv (op : State → Host.Outcome State Fault Refusal) : Prop :=
  ∀ s t, op s = .next t → t.bv = s.bv

theorem endOk_keepsBv (r : State → Response) : KeepsBv fun s => endOk s (r s) := by
  intro s t h
  rw [endOk_eq_next h]

theorem query_keepsBv (flag : Word → Nat → Bool) (idx : Word) : KeepsBv (query flag idx) := by
  intro s t h
  rcases query_cases flag idx s with ⟨i, -, hquery⟩ | ⟨-, hquery⟩
  · rw [endOk_eq_next (hquery.symm.trans h)]
  · rw [raiseDomain_eq_next (hquery.symm.trans h)]

/-- R3, R120: an operation of another unit passes BV by. -/
theorem exec_keepsBv_of_otherUnit {i : Instr} (h : i.coreUnit ≠ .bitvectorRegister) :
    KeepsBv (exec i) := by
  intro s t hrun
  obtain ⟨t', hrun', hbv, -⟩ := otherUnitsIgnoreBv i s 0 h
  rwa [Host.Outcome.next.inj (hrun.symm.trans hrun')]

/-- R21: an operation leaves BV alone, or it is a mutator. -/
theorem exec_keepsBv_or_mutator (i : Instr) :
    KeepsBv (exec i) ∨ ∃ idx, i = .bset idx ∨ i = .bclr idx ∨ i = .btgl idx := by
  cases i with
  | bset idx => exact .inr ⟨idx, .inl rfl⟩
  | bclr idx => exact .inr ⟨idx, .inr (.inl rfl)⟩
  | btgl idx => exact .inr ⟨idx, .inr (.inr rfl)⟩
  | bisset idx | bisclr idx => exact .inl (query_keepsBv _ idx)
  | bstr | bones | bzeros | bsize => exact .inl (endOk_keepsBv _)
  | ddec | dbin | dhex | ebin | ehex | setbyte | getnib | pack | bitrange | xor | pow2 =>
    exact .inl (exec_keepsBv_of_otherUnit nofun)

/-- Settles O19: every operation but the three mutators leaves BV alone. -/
theorem onlyMutatorsWriteBv : Obligations.OnlyMutatorsWriteBv := by
  intro i s t hrun hbv
  exact (exec_keepsBv_or_mutator i).resolve_left fun hkeeps => hbv (hkeeps s t hrun)

/-! ### The host's index -/

theorem State.k_lt_of_presented {s : State} {e : HostEvent} (h : s.presented = some e) :
    s.k < s.program.length :=
  (List.getElem?_eq_some_iff.mp h).1

/-- Settles O24: the index advances only past an event that the list holds. -/
theorem stepKeepsIndexOk : Obligations.StepKeepsIndexOk := by
  intro s t hk hstep
  rcases step_next_cases hstep with rfl | ⟨hpres, rfl⟩ | ⟨c, e, ⟨hreset, hpres⟩, -, rfl⟩
  · exact ⟨hk, rfl, id⟩
  · exact ⟨State.k_lt_of_presented hpres, rfl, fun _ => rfl⟩
  · exact ⟨State.k_lt_of_presented hpres, rfl, id⟩

/-! ### Runs of a program -/

/-- A state in the course of a run of `p`: the host's list is still `p`, the block has been reset, and the
response registers have their invariant. -/
structure MidRun (p : List Command) (s : State) : Prop where
  program : s.program = p.map .command
  wasReset : s.wasReset = true
  responseOk : ResponseOk s

theorem midRun_loaded (p : List Command) : MidRun p (loaded (p.map .command)) :=
  ⟨rfl, rfl, responseOk_loaded _⟩

theorem MidRun.ready {p : List Command} {s : State} (h : MidRun p s) (hk : s.k < p.length) :
    Ready s p[s.k] :=
  ⟨h.wasReset, by simp [State.presented, h.program, hk]⟩

/-- One command of a run: it completes, and the run goes on at the next index. -/
theorem MidRun.step_next {p : List Command} {s : State} (h : MidRun p s) (hk : s.k < p.length) :
    ∃ t, step s = .next t ∧ MidRun p t ∧ t.k = s.k + 1 := by
  obtain ⟨e, -, hstep⟩ := step_ready_endsProperly (h.ready hk)
  exact ⟨_, hstep, ⟨h.program, h.wasReset, stepKeepsResponseOk _ _ h.responseOk hstep⟩, rfl⟩

theorem runSteps_succ_of_step {s t : State} (h : step s = .next t) (n : Nat) :
    runSteps (n + 1) s = runSteps n t := by
  simp [runSteps, h]

/-- As many steps of a run as commands are left. -/
theorem MidRun.runSteps_next {p : List Command} {s : State} (n : Nat) (h : MidRun p s)
    (hk : s.k + n ≤ p.length) :
    ∃ t, runSteps n s = .next t ∧ MidRun p t ∧ t.k = s.k + n := by
  induction n generalizing s with
  | zero => exact ⟨s, rfl, h, rfl⟩
  | succ n ih =>
    obtain ⟨t, hstep, ht, htk⟩ := h.step_next (by omega)
    obtain ⟨u, hrun, hu, huk⟩ := ih ht (by omega)
    exact ⟨u, by rw [runSteps_succ_of_step hstep, hrun], hu, by omega⟩

/-- Settles O25: a run takes one step per command, from the loaded reset state. -/
theorem everyProgramRunsToItsEnd : Obligations.EveryProgramRunsToItsEnd := by
  intro p
  obtain ⟨t, hrun, ht, htk⟩ := (midRun_loaded p).runSteps_next p.length (Nat.zero_add _).le
  exact ⟨t, hrun, htk.trans (Nat.zero_add _), ht.program, ht.responseOk⟩

/-! ### One command -/

/-- Settles O6: the operation answers a state with the index as it was, and the step advances it. -/
theorem stepRunsTheDecodedCommand : Obligations.StepRunsTheDecodedCommand := by
  intro s c i hready hdecode
  obtain ⟨e, -, hexec⟩ := exec_endsProperly i
  have hrun : runCommand c s = .next (s.endWith (e s.bv)) := by
    simp only [runCommand, hdecode, hexec]
  exact ⟨_, hexec s, by rw [step_of_ready hready, hrun]; rfl⟩

/-- Settles O17: the effect depends on BV alone, and it writes all four response registers. -/
theorem everyCommandWritesAllResponses : Obligations.EveryCommandWritesAllResponses := by
  intro c s res flag txt status
  obtain ⟨e, -, hrun⟩ := runCommand_endsProperly c
  rw [hrun, hrun]
  rfl

end Sys2Proof.Machine
end

section
/-!
PROOFS about ordering (20_memory.md). An operation that leaves BV alone meets the same BV when it is
repeated, and so ends by the same effect; an effect has nothing more to change the second time. Of the
mutators, BSET and BCLR write a BV that they would write again, and BTGL undoes itself (R50).
-/

namespace Sys2Proof.Machine

/-! ### Ending a command twice by one effect -/

/-- R175: the bit of R_ERR that a status has set is set already. -/
@[simp] theorem errAfter_errAfter (err : BitVec 2) (st : Status) :
    errAfter (errAfter err st) st = errAfter err st := by
  simp [errAfter, BitVec.or_assoc]

theorem State.endWith_endWith (s : State) (e : Effect) : (s.endWith e).endWith e = s.endWith e := by
  simp [State.endWith, State.respond, State.writeBv]

/-- R50: repeated at once, the operation leaves the state it has left. -/
def Idempotent (op : State → Host.Outcome State Fault Refusal) : Prop :=
  ∀ s t, op s = .next t → op t = .next t

/-- An operation is idempotent where the BV it leaves calls for the same effect again. -/
theorem idempotent_of_sameEffect {op : State → Host.Outcome State Fault Refusal} {e : Word → Effect}
    (hrun : ∀ s, op s = .next (s.endWith (e s.bv))) (hsame : ∀ s : State, e (e s.bv).bv = e s.bv) :
    Idempotent op := by
  intro s t h
  obtain rfl : s.endWith (e s.bv) = t := Host.Outcome.next.inj ((hrun s).symm.trans h)
  rw [hrun, State.endWith_bv, hsame, State.endWith_endWith]

theorem idempotent_of_keepsBv {op : State → Host.Outcome State Fault Refusal}
    (hends : EndsProperly op) (hkeeps : KeepsBv op) : Idempotent op := by
  obtain ⟨e, -, hrun⟩ := hends
  exact idempotent_of_sameEffect hrun fun s => congrArg e (hkeeps s _ (hrun s))

/-! ### The mutators -/

theorem raiseDomain_keepsBv : KeepsBv raiseDomain := by
  intro s t h
  rw [raiseDomain_eq_next h]

/-- R141 to R143: what a mutator leaves in BV, where a rejected index changes nothing. -/
theorem mutate_next_bv {change : Word → Word → Word} {idx : Word} {s t : State}
    (h : mutate change idx s = .next t) :
    t.bv = (mutatorIndex idx).elim s.bv fun i => change s.bv (singletonMask i) := by
  rcases mutate_cases change idx s with ⟨i, hidx, hrun⟩ | ⟨hidx, hrun⟩
  · rw [endOk_eq_next (hrun.symm.trans h), hidx]
    rfl
  · rw [raiseDomain_eq_next (hrun.symm.trans h), hidx]
    rfl

/-- A mutator is idempotent where its change of BV is. -/
theorem mutate_idempotent {change : Word → Word → Word}
    (hchange : ∀ v m, change (change v m) m = change v m) (idx : Word) :
    Idempotent (mutate change idx) := by
  unfold mutate
  cases mutatorIndex idx with
  | some i =>
    exact idempotent_of_sameEffect (e := fun bv => ⟨change bv (singletonMask i), nullResponse, .ok⟩)
      (fun _ => rfl) fun s => by simp only [hchange]
  | none => exact idempotent_of_keepsBv raiseDomain_endsProperly raiseDomain_keepsBv

theorem execBset_idempotent (idx : Word) : Idempotent (execBset idx) :=
  mutate_idempotent (fun v m => by rw [BitVec.or_assoc, BitVec.or_self]) idx

theorem execBclr_idempotent (idx : Word) : Idempotent (execBclr idx) :=
  mutate_idempotent (fun v m => by rw [BitVec.and_assoc, BitVec.and_self]) idx

/-- R143: toggling one bit twice restores BV, and a rejected index leaves it alone twice. -/
theorem execBtgl_twice_bv {idx : Word} {s t u : State} (hst : execBtgl idx s = .next t)
    (htu : execBtgl idx t = .next u) : u.bv = s.bv := by
  rw [mutate_next_bv htu, mutate_next_bv hst]
  cases mutatorIndex idx with
  | some i => simp [BitVec.xor_assoc]
  | none => rfl

/-! ### All operations -/

/-- R50: every operation except BTGL is idempotent. -/
theorem exec_idempotent {i : Instr} (h : ∀ idx, i ≠ .btgl idx) : Idempotent (exec i) := by
  rcases exec_keepsBv_or_mutator i with hkeeps | ⟨idx, rfl | rfl | rfl⟩
  · exact idempotent_of_keepsBv (exec_endsProperly i) hkeeps
  · exact execBset_idempotent idx
  · exact execBclr_idempotent idx
  · exact absurd rfl (h idx)

/-- Settles O21: a repeated operation meets the BV it has left, and BTGL meets its own bit toggled. -/
theorem repeatedCommandsAreIdempotent : Obligations.RepeatedCommandsAreIdempotent :=
  ⟨fun _ s t h => exec_idempotent h s t, fun _ _ _ _ => execBtgl_twice_bv⟩

end Sys2Proof.Machine
end

section
/-!
PROOFS about the encoding (30_encoding.md), decoding. The case table of R67 answers with an operation exactly
where the code and the operands are that operation's; from this one fact follow the opcode map, the round
trip, the illegal words and the inputs that a command ignores.
-/

namespace Sys2Proof

open Sys2Proof.Machine Sys2Proof.Safety

/-! ### The command word -/

/-- R61: the value of a word by its two fields. -/
theorem toNat_eq_fields (w : Word) :
    w.toNat = (rsvField w).toNat * 256 + (opField w).toNat := by
  have hw := w.isLt
  simp only [opField, rsvField, BitVec.extractLsb'_toNat, Nat.shiftRight_eq_div_pow]
  omega

/-- R61, R72: a word is a zero-extended code exactly if its reserved bits are 0 and its OP is the code. -/
theorem toNat_eq_code_iff (w : Word) (op : Byte) :
    w.toNat = op.toNat ↔ rsvField w = 0 ∧ opField w = op := by
  have hw := toNat_eq_fields w
  have hop := op.isLt
  have hfield := (opField w).isLt
  have hzero : (0 : BitVec 24).toNat = 0 := rfl
  rw [← BitVec.toNat_inj, ← BitVec.toNat_inj, hzero]
  omega

/-! ### The case table -/

/-- R64: the table takes the operands of its answer from the inputs that R63 names. -/
theorem takesFrom_of_decodeOp {op : Byte} {c : Command} {i : Instr} (h : decodeOp op c = .ok i) :
    takesFrom i c := by
  unfold decodeOp at h
  split at h <;> cases h <;> simp [takesFrom]

/-- R63, R64: the table answers an operation's code with that operation. -/
theorem decodeOp_opcode {i : Instr} {c : Command} (h : takesFrom i c) :
    decodeOp (opcode i) c = .ok i := by
  cases i with
  | ddec | dbin | dhex | ebin | ehex | pow2 | bset | bclr | btgl | bisset | bisclr =>
    cases h; rfl
  | getnib | xor =>
    obtain ⟨rfl, rfl⟩ := h; rfl
  | setbyte | bitrange =>
    obtain ⟨rfl, rfl, rfl⟩ := h; rfl
  | pack =>
    obtain ⟨rfl, rfl, rfl, rfl⟩ := h; rfl
  | bstr | bones | bzeros | bsize => rfl

theorem decodeOp_eq_ok_iff {op : Byte} {c : Command} {i : Instr} :
    decodeOp op c = .ok i ↔ opcode i = op ∧ takesFrom i c := by
  refine ⟨fun h => ⟨opcode_of_decodeOp h, takesFrom_of_decodeOp h⟩, ?_⟩
  rintro ⟨rfl, htakes⟩
  exact decodeOp_opcode htakes

/-- R66: a code that the list leaves out is one of the twenty. -/
theorem exists_decodeOp_of_legal {c : Command} (h : ¬ illegalWord c.cmd) :
    ∃ i, decodeOp (opField c.cmd) c = .ok i := by
  have hw := toNat_eq_fields c.cmd
  unfold decodeOp
  split
  case h_21 =>
    simp only [imp_false] at *
    omega
  all_goals exact ⟨_, rfl⟩

/-! ### Decoding -/

/-- Settles O2: without reserved bits it is the case table that answers. -/
theorem decodeIsExactlyTheOpcodeMap : Obligations.DecodeIsExactlyTheOpcodeMap := by
  intro c i
  rw [toNat_eq_code_iff]
  by_cases hrsv : rsvField c.cmd = 0
  · rw [decode_of_rsv_zero c hrsv, decodeOp_eq_ok_iff]
    simp [hrsv, eq_comm]
  · simp only [(decode_reserved_iff c).mpr hrsv, hrsv, reduceCtorEq, false_and]

/-- R72: an encoded operation has its code as its word and its operands on its inputs. -/
theorem encode_cmd (i : Instr) : (encode i).cmd = (opcode i).setWidth 32 := by
  cases i <;> rfl

theorem takesFrom_encode (i : Instr) : takesFrom i (encode i) := by
  cases i <;> simp [takesFrom, encode, encodeWith]

/-- Settles O1: the encoder meets both conditions of the opcode map. -/
theorem decodeOfEncodeIsIdentity : Obligations.DecodeOfEncodeIsIdentity := by
  intro i
  have hcode : (encode i).cmd.toNat = (opcode i).toNat := by
    rw [encode_cmd, toNat_eq_code_iff]
    exact (fields_of_setWidth _).symm
  exact (decodeIsExactlyTheOpcodeMap (encode i) i).mpr ⟨hcode, takesFrom_encode i⟩

/-! ### Illegal words -/

/-- R63, R66: no operation has a code from the list. -/
theorem legal_of_toNat_eq_opcode {w : Word} {i : Instr} (h : w.toNat = (opcode i).toNat) :
    ¬ illegalWord w := by
  unfold illegalWord
  rw [h]
  cases i <;> simp [opcode]

theorem exists_decode_iff_legal (c : Command) : (∃ i, decode c = .ok i) ↔ ¬ illegalWord c.cmd := by
  constructor
  · rintro ⟨i, hi⟩
    exact legal_of_toNat_eq_opcode ((decodeIsExactlyTheOpcodeMap c i).mp hi).1
  · intro hlegal
    have hrsv : rsvField c.cmd = 0 := by
      have hw := toNat_eq_fields c.cmd
      have hop := (opField c.cmd).isLt
      apply BitVec.eq_of_toNat_eq
      change (rsvField c.cmd).toNat = 0
      omega
    rw [decode_of_rsv_zero c hrsv]
    exact exists_decodeOp_of_legal hlegal

theorem runCommand_of_decode {c : Command} {i : Instr} (h : decode c = .ok i) (s : State) :
    runCommand c s = exec i s := by
  simp only [runCommand, h]

/-- R66, R171: a word that selects no operation ends ILLEGAL. -/
theorem runCommand_of_illegalWord {c : Command} (h : illegalWord c.cmd) (s : State) :
    runCommand c s = raiseIllegal s := by
  cases hdecode : decode c with
  | ok i => exact absurd h ((exists_decode_iff_legal c).mp ⟨i, hdecode⟩)
  | error e => simp only [runCommand, hdecode]

/-- Settles O4: decoding fails exactly on the listed words. -/
theorem illegalWordEndsIllegal : Obligations.IllegalWordEndsIllegal := by
  intro s c hready
  refine ⟨fun hillegal => ?_, (exists_decode_iff_legal c).mpr⟩
  rw [step_of_ready hready, runCommand_of_illegalWord hillegal]
  rfl

/-! ### Ignored inputs -/

/-- Settles O5: both commands decode to the one operation. -/
theorem ignoredInputsDoNotMatter : Obligations.IgnoredInputsDoNotMatter := by
  intro c c' i s hdecode hcmd htakes
  have hcode := ((decodeIsExactlyTheOpcodeMap c i).mp hdecode).1
  have hdecode' : decode c' = .ok i :=
    (decodeIsExactlyTheOpcodeMap c' i).mpr ⟨hcmd ▸ hcode, htakes⟩
  rw [runCommand_of_decode hdecode, runCommand_of_decode hdecode']

/-! ### Words of the opcode table -/

/-- R63: the operation of a table word, whose inputs are those of its bits (log 11). -/
theorem decodeTableWord_eq_some {nbits w : Nat} {i : Instr}
    (hcode : (commandOfBits nbits w).cmd.toNat = (opcode i).toNat)
    (htakes : takesFrom i (commandOfBits nbits w)) : decodeTableWord nbits w = some i := by
  simp only [decodeTableWord, (decodeIsExactlyTheOpcodeMap _ i).mpr ⟨hcode, htakes⟩]

theorem decodeTableWord_eq_none {nbits w : Nat} (h : illegalWord (commandOfBits nbits w).cmd) :
    decodeTableWord nbits w = none := by
  unfold decodeTableWord
  cases hdecode : decode (commandOfBits nbits w) with
  | ok i => exact absurd h ((exists_decode_iff_legal _).mp ⟨i, hdecode⟩)
  | error e => rfl

/-- Settles O3: each word is a code of the map with its operands 0, or stands in R66's list. -/
theorem opcodeMapWordsDecode : Obligations.OpcodeMapWordsDecode :=
  ⟨decodeTableWord_eq_some rfl rfl, decodeTableWord_eq_some rfl rfl,
    decodeTableWord_eq_some rfl ⟨rfl, rfl, rfl⟩, decodeTableWord_eq_some rfl rfl,
    decodeTableWord_eq_some rfl rfl, decodeTableWord_eq_some rfl trivial,
    decodeTableWord_eq_none (by decide), decodeTableWord_eq_none (by decide),
    decodeTableWord_eq_none (by decide)⟩

end Sys2Proof
end

section
/-!
PROOFS about the encoding (30_encoding.md), literals. The assembler reads the digits of an `int` literal to
the value of the numeral (R70), and reads back every byte that R71 writes in a string operand.
-/

namespace Sys2Proof.Assembler

open Sys2Proof.Machine Sys2Proof.Safety

/-! ### Digits of an `int` literal -/

/-- Horner's rule from the first digit on gives the sum over the positions. `val` is the canonical digit
that a character stands for. -/
theorem foldl_digits_eq {base : Nat} {digit : Byte → Option Nat} {canon : Byte → Byte}
    {ds : List Byte} (h : ∀ c ∈ ds, digit c = some (digitNat (canon c))) (acc : Nat) :
    ds.foldl (fun acc c => acc.bind fun n => (digit c).map (n * base + ·)) (some acc) =
      some (acc * base ^ ds.length + numeralSum base (ds.map canon)) := by
  induction ds generalizing acc with
  | nil => simp [numeralSum]
  | cons c ds ih =>
    obtain ⟨hc, hds⟩ := List.forall_mem_cons.mp h
    rw [List.foldl_cons, hc]
    simp only [Option.bind_some, Option.map_some, ih hds, List.map_cons, numeralSum,
      List.length_cons, List.length_map]
    congr 1
    ring

theorem readDigits_eq {base : Nat} {digit : Byte → Option Nat} {canon : Byte → Byte}
    {ds : List Byte} (hne : ds ≠ []) (h : ∀ c ∈ ds, digit c = some (digitNat (canon c))) :
    readDigits base digit ds = some (numeralSum base (ds.map canon)) := by
  rw [readDigits, if_neg (by simpa using hne), foldl_digits_eq h, Nat.zero_mul, Nat.zero_add]

theorem decDigit_of_decChar {c : Byte} (h : decChar c) : decDigit c = some (digitNat c) := by
  revert c
  decide

theorem hexDigit_of_upperHexChar {c : Byte} (h : upperHexChar (upCase c)) :
    hexDigit c = some (digitNat (upCase c)) := by
  revert c
  decide

theorem readDigits_decimal {ds : List Byte} (hne : ds ≠ []) (h : ∀ c ∈ ds, decChar c) :
    readDigits 10 decDigit ds = some (numeralSum 10 ds) := by
  simpa using readDigits_eq (canon := id) hne fun c hc => decDigit_of_decChar (h c hc)

/-! ### `int` literals -/

/-- A decimal numeral starts neither with `0x` nor with a minus sign. -/
theorem readInt_decimal {ds : List Byte} (hne : ds ≠ []) (h : ∀ c ∈ ds, decChar c) :
    readInt ds = if numeralSum 10 ds < 2 ^ 32 then some (BitVec.ofNat 32 (numeralSum 10 ds)) else none := by
  have hstart {n : Nat} {l : List Byte} (htake : ds.take n = l) : ∀ c ∈ l, decChar c :=
    fun c hc => h c (List.mem_of_mem_take (htake ▸ hc))
  have hhex : ds.take 2 ≠ [0x30, 0x78] := fun htake => absurd (hstart htake) (by decide)
  have hminus : ds.take 1 ≠ [0x2D] := fun htake => absurd (hstart htake) (by decide)
  rw [readInt, if_neg hhex, if_neg hminus, readDigits_decimal hne h]

theorem readInt_minus {ds : List Byte} (hne : ds ≠ []) (h : ∀ c ∈ ds, decChar c) :
    readInt (0x2D :: ds) =
      if numeralSum 10 ds ≤ 2 ^ 31 then some (BitVec.ofInt 32 (-(numeralSum 10 ds : Int))) else none := by
  simp [readInt, readDigits_decimal hne h]

theorem readInt_hex {ds : List Byte} (hne : ds ≠ []) (h : ∀ c ∈ ds, upperHexChar (upCase c)) :
    readInt (0x30 :: 0x78 :: ds) =
      if ds.length ≤ 8 then some (BitVec.ofNat 32 (numeralSum 16 (ds.map upCase))) else none := by
  have hdigits := readDigits_eq (base := 16) hne fun c hc => hexDigit_of_upperHexChar (h c hc)
  simp [readInt, hdigits]

/-- Settles O54: each of the three forms is read to the value of its digits. -/
theorem intLiteralsGiveTheirPattern : Obligations.IntLiteralsGiveTheirPattern :=
  ⟨fun _ hne h => ⟨readInt_decimal hne h, readInt_minus hne h⟩, fun _ => readInt_hex⟩

/-! ### Bytes of a string operand -/

theorem hexDigit_hexChar (v : BitVec 4) : hexDigit (hexChar v) = some v.toNat := by
  revert v
  decide

/-- R71: the two digits of `\xHH` give the byte that they were taken from. -/
theorem nibbles_give_byte (c : Byte) :
    BitVec.ofNat 8 (c.extractLsb' 4 4).toNat * 16 + BitVec.ofNat 8 (c.extractLsb' 0 4).toNat = c := by
  revert c
  decide

/-- R71: the escape `\x` starts two digits. -/
theorem lex_escape_hex (t rest : List Byte) :
    lex (.text t) (0x5C :: 0x78 :: rest) = lex (.hexHi t) rest := rfl

/-- R71: inside a string, the characters of one byte are read as that byte. -/
theorem lex_quoteByte (t : List Byte) (c : Byte) (rest : List Byte) :
    lex (.text t) (quoteByte c ++ rest) = lex (.text (c :: t)) rest := by
  unfold quoteByte
  split_ifs with hquote hbackslash hplain
  · subst hquote; rfl
  · subst hbackslash; rfl
  · have hle : c ≤ 0x7F := hplain.1
    rw [List.singleton_append, lex, if_neg hquote, if_neg hbackslash, if_pos hle]
  · have hbyte := nibbles_give_byte c
    simp only [List.cons_append, List.nil_append, lex_escape_hex, hexDigit_hexChar, hbyte, lex]

theorem lex_quoteBytes_tail (t bytes : List Byte) :
    lex (.text t) (bytes.flatMap quoteByte ++ [0x22]) = some [.text (t.reverse ++ bytes)] := by
  induction bytes generalizing t with
  | nil => simp [lex]
  | cons c bytes ih =>
    rw [List.flatMap_cons, List.append_assoc, lex_quoteByte, ih, List.reverse_cons,
      List.append_assoc, List.singleton_append]

theorem lex_quoteBytes (bytes : List Byte) :
    lex .gap (quoteBytes bytes) = some [.text bytes] := by
  have htail := lex_quoteBytes_tail [] bytes
  simpa [quoteBytes, lex, isBlank] using htail

/-! ### The line that a mnemonic and a string make -/

theorem hexChar_ne_line_end (v : BitVec 4) : hexChar v ≠ 0x0A := by
  revert v
  decide

/-- R71: a line feed is written by its code, so no written byte ends the line. -/
theorem quoteByte_no_line_end (c : Byte) : ∀ d ∈ quoteByte c, d ≠ 0x0A := by
  unfold quoteByte
  split_ifs with hquote hbackslash hplain
  · decide
  · decide
  · simpa using hplain.2
  · simpa using ⟨hexChar_ne_line_end _, hexChar_ne_line_end _⟩


theorem quoteBytes_no_line_end (bytes : List Byte) : ∀ d ∈ quoteBytes bytes, d ≠ 0x0A := by
  intro d hd
  simp only [quoteBytes, List.mem_append, List.mem_singleton, List.mem_flatMap] at hd
  rcases hd with (rfl | ⟨c, -, hdc⟩) | rfl
  · decide
  · exact quoteByte_no_line_end c d hdc
  · decide

/-- The characters that the lexer gathers into a word, wherever it stands outside a string (R68, log 9). -/
abbrev wordChar (c : Byte) : Prop :=
  isBlank c = false ∧ c ≠ 0x3B ∧ c ≠ 0x2C ∧ c ≠ 0x22 ∧ c ≠ 0x0A

theorem lex_gap_wordChar {c : Byte} (h : wordChar c) (rest : List Byte) :
    lex .gap (c :: rest) = lex (.word [c]) rest := by
  obtain ⟨hblank, hsemicolon, hcomma, hquote, -⟩ := h
  rw [lex, hblank, if_neg Bool.false_ne_true, if_neg hsemicolon, if_neg hcomma, if_neg hquote]

theorem lex_word_wordChar {c : Byte} (h : wordChar c) (w rest : List Byte) :
    lex (.word w) (c :: rest) = lex (.word (c :: w)) rest := by
  obtain ⟨hblank, hsemicolon, hcomma, hquote, -⟩ := h
  rw [lex, hblank, if_neg Bool.false_ne_true, if_neg hsemicolon, if_neg hcomma, if_neg hquote]

theorem lex_word_until_space (w chars rest : List Byte) (h : ∀ c ∈ chars, wordChar c) :
    lex (.word w) (chars ++ 0x20 :: rest) =
      (lex .gap rest).map (.word (w.reverse ++ chars) :: ·) := by
  induction chars generalizing w with
  | nil => rw [List.append_nil]; rfl
  | cons c chars ih =>
    obtain ⟨hc, hchars⟩ := List.forall_mem_cons.mp h
    rw [List.cons_append, lex_word_wordChar hc, ih _ hchars, List.reverse_cons, List.append_assoc,
      List.singleton_append]

theorem lex_gap_word_until_space {c : Byte} {chars : List Byte} (h : ∀ d ∈ c :: chars, wordChar d)
    (rest : List Byte) :
    lex .gap (c :: chars ++ 0x20 :: rest) = (lex .gap rest).map (.word (c :: chars) :: ·) := by
  obtain ⟨hc, hchars⟩ := List.forall_mem_cons.mp h
  rw [List.cons_append, lex_gap_wordChar hc, lex_word_until_space _ _ _ hchars]
  rfl

/-- R68, R71: a word, a space and a string are one line, with the string as its only operand. -/
theorem assembleLines_string_line {c : Byte} {chars : List Byte} (h : ∀ d ∈ c :: chars, wordChar d)
    (bytes : List Byte) :
    assembleLines (c :: chars ++ 0x20 :: quoteBytes bytes) =
      [buildLine (c :: chars) [.text bytes]] := by
  have hline : ∀ d ∈ c :: chars ++ 0x20 :: quoteBytes bytes, d ≠ 0x0A := by
    intro d hd
    rcases List.mem_append.mp hd with hword | hrest
    · obtain ⟨-, -, -, -, hline⟩ := h d hword
      exact hline
    · rcases List.mem_cons.mp hrest with rfl | hbytes
      · decide
      · exact quoteBytes_no_line_end bytes d hbytes
  have hlex : lex .gap (c :: chars ++ 0x20 :: quoteBytes bytes) =
      some [.word (c :: chars), .text bytes] := by
    rw [lex_gap_word_until_space h, lex_quoteBytes]
    rfl
  rw [assembleLines, splitLines_of_no_line_end _ _ hline, List.reverse_nil, List.nil_append,
    List.map_singleton, parseLine, hlex]
  rfl

/-- Settles O55: the three decoders' lines are built from their name and the string's bytes. -/
theorem stringLiteralsGiveTheirBytes : Obligations.StringLiteralsGiveTheirBytes := by
  intro bytes
  refine ⟨lex_quoteBytes bytes, ?_, ?_, ?_⟩
  · exact assembleLines_string_line (c := 0x44) (chars := ascii "DEC") (by decide) bytes
  · exact assembleLines_string_line (c := 0x44) (chars := ascii "BIN") (by decide) bytes
  · exact assembleLines_string_line (c := 0x44) (chars := ascii "HEX") (by decide) bytes

end Sys2Proof.Assembler
end

section
/-!
PROOFS about the encoding (30_encoding.md), lines. Each mnemonic's operand shape takes exactly the operands
that R69 gives it and lays them out as R72 says. The assembler's table and the table of R63 and R69 agree row
by row, so this holds of every line.
-/

namespace Sys2Proof.Assembler

open Sys2Proof.Safety

/-! ### The operands of a line by kind -/

@[simp] theorem intOperands_nil : intOperands [] = [] := rfl
@[simp] theorem intOperands_int (w : Word) (ops : List Operand) :
    intOperands (.int w :: ops) = w :: intOperands ops := rfl
@[simp] theorem intOperands_text (t : List Byte) (ops : List Operand) :
    intOperands (.text t :: ops) = intOperands ops := rfl
@[simp] theorem textOperands_nil : textOperands [] = [] := rfl
@[simp] theorem textOperands_int (w : Word) (ops : List Operand) :
    textOperands (.int w :: ops) = textOperands ops := rfl
@[simp] theorem textOperands_text (t : List Byte) (ops : List Operand) :
    textOperands (.text t :: ops) = t :: textOperands ops := rfl

theorem eq_ints_of_textOperands_nil {ops : List Operand} (h : textOperands ops = []) :
    ops = (intOperands ops).map .int := by
  induction ops with
  | nil => rfl
  | cons o ops ih =>
    cases o with
    | int w => exact congrArg (.int w :: ·) (ih h)
    | text t => exact nomatch h

theorem eq_texts_of_intOperands_nil {ops : List Operand} (h : intOperands ops = []) :
    ops = (textOperands ops).map .text := by
  induction ops with
  | nil => rfl
  | cons o ops ih =>
    cases o with
    | int w => exact nomatch h
    | text t => exact congrArg (.text t :: ·) (ih h)

theorem intOperands_ints (ws : List Word) : intOperands (ws.map .int) = ws := by
  induction ws with
  | nil => rfl
  | cons w ws ih => rw [List.map_cons, intOperands_int, ih]

theorem textOperands_ints (ws : List Word) : textOperands (ws.map .int) = [] := by
  induction ws with
  | nil => rfl
  | cons w ws ih => rw [List.map_cons, textOperands_int, ih]

/-- `n` `int` operands and no string are the `int` operands of `n` words. -/
theorem counts_ints_iff {ops : List Operand} {n : Nat} :
    (intOperands ops).length = n ∧ (textOperands ops).length = 0 ↔
      ∃ ws : List Word, ws.length = n ∧ ops = ws.map .int := by
  constructor
  · rintro ⟨hints, htexts⟩
    exact ⟨intOperands ops, hints, eq_ints_of_textOperands_nil (List.length_eq_zero_iff.mp htexts)⟩
  · rintro ⟨ws, hlength, rfl⟩
    rw [intOperands_ints, textOperands_ints]
    exact ⟨hlength, rfl⟩

/-- One string and no `int` operand. -/
theorem counts_text_iff {ops : List Operand} :
    (intOperands ops).length = 0 ∧ (textOperands ops).length = 1 ↔ ∃ t, ops = [.text t] := by
  constructor
  · rintro ⟨hints, htexts⟩
    obtain ⟨t, ht⟩ := List.length_eq_one_iff.mp htexts
    have hops := eq_texts_of_intOperands_nil (List.length_eq_zero_iff.mp hints)
    exact ⟨t, by rw [hops, ht]; rfl⟩
  · rintro ⟨t, rfl⟩
    exact ⟨rfl, rfl⟩

/-! ### Operand shapes -/

/-- The shape takes the operands that fit the row, to an operation with the command of R72, and no others. -/
def ReadsRow (row : MnemonicRow) (build : List Operand → Option Instr) : Prop :=
  ∀ ops, (build ops).map encode = if operandsFit row ops then some (lineInputs row.op ops) else none

theorem ReadsRow.exists_of_fit {row : MnemonicRow} {build : List Operand → Option Instr}
    (h : ReadsRow row build) {ops : List Operand} (hfit : operandsFit row ops) :
    ∃ i, build ops = some i ∧ encode i = lineInputs row.op ops := by
  have hops := h ops
  rwa [if_pos hfit, Option.map_eq_some_iff] at hops

theorem ReadsRow.none_of_not_fit {row : MnemonicRow} {build : List Operand → Option Instr}
    (h : ReadsRow row build) {ops : List Operand} (hfit : ¬ operandsFit row ops) :
    build ops = none := by
  have hops := h ops
  rwa [if_neg hfit, Option.map_eq_none_iff] at hops

/-- A shape reads its row if it takes every fitting list as R72 says and answers no other list. -/
theorem readsRow_of_ints {name : List Byte} {op n : Nat} {build : List Operand → Option Instr}
    (htakes : ∀ ws : List Word, ws.length = n →
      ∃ i, build (ws.map .int) = some i ∧ encode i = lineInputs op (ws.map .int))
    (hrejects : ∀ ops, (∀ ws : List Word, ws.length = n → ops ≠ ws.map .int) → build ops = none) :
    ReadsRow ⟨name, op, n, 0⟩ build := by
  intro ops
  split
  case isTrue hfit =>
    obtain ⟨ws, hlength, rfl⟩ := counts_ints_iff.mp hfit
    obtain ⟨i, hbuild, hencode⟩ := htakes ws hlength
    rw [hbuild, Option.map_some, hencode]
  case isFalse hfit =>
    rw [hrejects ops fun ws hlength hops => hfit (counts_ints_iff.mpr ⟨ws, hlength, hops⟩),
      Option.map_none]

section
variable {name : List Byte} {op : Nat}

theorem oneText_readsRow {f : List Byte → Instr} (hf : ∀ t, encode (f t) = lineInputs op [.text t]) :
    ReadsRow ⟨name, op, 0, 1⟩ (oneText f) := by
  intro ops
  split
  case isTrue hfit =>
    obtain ⟨t, rfl⟩ := counts_text_iff.mp hfit
    exact congrArg some (hf t)
  case isFalse hfit =>
    unfold oneText
    split
    · exact absurd (counts_text_iff.mpr ⟨_, rfl⟩) hfit
    · rfl

theorem noOperand_readsRow {i : Instr} (hi : encode i = lineInputs op []) :
    ReadsRow ⟨name, op, 0, 0⟩ (noOperand i) := by
  refine readsRow_of_ints (fun ws hlength => ?_) (fun ops hother => ?_)
  · obtain rfl := List.length_eq_zero_iff.mp hlength
    exact ⟨i, rfl, hi⟩
  · unfold noOperand
    split
    · exact absurd rfl (hother [] rfl)
    · rfl

theorem oneInt_readsRow {f : Word → Instr} (hf : ∀ a, encode (f a) = lineInputs op [.int a]) :
    ReadsRow ⟨name, op, 1, 0⟩ (oneInt f) := by
  refine readsRow_of_ints (fun ws hlength => ?_) (fun ops hother => ?_)
  · obtain ⟨a, rfl⟩ := List.length_eq_one_iff.mp hlength
    exact ⟨f a, rfl, hf a⟩
  · unfold oneInt
    split
    · exact absurd rfl (hother [_] rfl)
    · rfl

theorem twoInts_readsRow {f : Word → Word → Instr}
    (hf : ∀ a b, encode (f a b) = lineInputs op [.int a, .int b]) :
    ReadsRow ⟨name, op, 2, 0⟩ (twoInts f) := by
  refine readsRow_of_ints (fun ws hlength => ?_) (fun ops hother => ?_)
  · obtain ⟨a, b, rfl⟩ := List.length_eq_two.mp hlength
    exact ⟨f a b, rfl, hf a b⟩
  · unfold twoInts
    split
    · exact absurd rfl (hother [_, _] rfl)
    · rfl

theorem threeInts_readsRow {f : Word → Word → Word → Instr}
    (hf : ∀ a b c, encode (f a b c) = lineInputs op [.int a, .int b, .int c]) :
    ReadsRow ⟨name, op, 3, 0⟩ (threeInts f) := by
  refine readsRow_of_ints (fun ws hlength => ?_) (fun ops hother => ?_)
  · obtain ⟨a, b, c, rfl⟩ := List.length_eq_three.mp hlength
    exact ⟨f a b c, rfl, hf a b c⟩
  · unfold threeInts
    split
    · exact absurd rfl (hother [_, _, _] rfl)
    · rfl

theorem fourInts_readsRow {f : Word → Word → Word → Word → Instr}
    (hf : ∀ a b c d, encode (f a b c d) = lineInputs op [.int a, .int b, .int c, .int d]) :
    ReadsRow ⟨name, op, 4, 0⟩ (fourInts f) := by
  refine readsRow_of_ints (fun ws hlength => ?_) (fun ops hother => ?_)
  · obtain ⟨a, b, c, d, rfl⟩ := List.length_eq_four.mp hlength
    exact ⟨f a b c d, rfl, hf a b c d⟩
  · unfold fourInts
    split
    · exact absurd rfl (hother [_, _, _, _] rfl)
    · rfl

end

/-! ### The two tables -/

/-- The entry of the assembler's table is the row's. -/
def EntryOfRow (row : MnemonicRow) (entry : List Byte × (List Operand → Option Instr)) : Prop :=
  entry.1 = row.name ∧ ReadsRow row entry.2

/-- R63, R69: row by row, the assembler's table is the one of the spec. -/
theorem tables_agree : List.Forall₂ EntryOfRow mnemonicRows mnemonicTable :=
  .cons ⟨rfl, oneText_readsRow fun _ => rfl⟩ <|        -- DDEC
  .cons ⟨rfl, oneText_readsRow fun _ => rfl⟩ <|        -- DBIN
  .cons ⟨rfl, oneText_readsRow fun _ => rfl⟩ <|        -- DHEX
  .cons ⟨rfl, oneInt_readsRow fun _ => rfl⟩ <|         -- EBIN
  .cons ⟨rfl, oneInt_readsRow fun _ => rfl⟩ <|         -- EHEX
  .cons ⟨rfl, threeInts_readsRow fun _ _ _ => rfl⟩ <|  -- SETBYTE
  .cons ⟨rfl, twoInts_readsRow fun _ _ => rfl⟩ <|      -- GETNIB
  .cons ⟨rfl, fourInts_readsRow fun _ _ _ _ => rfl⟩ <| -- PACK
  .cons ⟨rfl, threeInts_readsRow fun _ _ _ => rfl⟩ <|  -- BITRANGE
  .cons ⟨rfl, twoInts_readsRow fun _ _ => rfl⟩ <|      -- XOR
  .cons ⟨rfl, oneInt_readsRow fun _ => rfl⟩ <|         -- POW2
  .cons ⟨rfl, oneInt_readsRow fun _ => rfl⟩ <|         -- BSET
  .cons ⟨rfl, oneInt_readsRow fun _ => rfl⟩ <|         -- BCLR
  .cons ⟨rfl, oneInt_readsRow fun _ => rfl⟩ <|         -- BTGL
  .cons ⟨rfl, oneInt_readsRow fun _ => rfl⟩ <|         -- BISSET
  .cons ⟨rfl, oneInt_readsRow fun _ => rfl⟩ <|         -- BISCLR
  .cons ⟨rfl, noOperand_readsRow rfl⟩ <|               -- BSTR
  .cons ⟨rfl, noOperand_readsRow rfl⟩ <|               -- BONES
  .cons ⟨rfl, noOperand_readsRow rfl⟩ <|               -- BZEROS
  .cons ⟨rfl, noOperand_readsRow rfl⟩ .nil             -- BSIZE

theorem mnemonicRows_names_nodup : (mnemonicRows.map MnemonicRow.name).Nodup := by
  decide

/-- Where tables agree row by row and no name stands twice, a row's name finds the row's entry. -/
theorem lookup_of_mem_row {rows : List MnemonicRow}
    {table : List (List Byte × (List Operand → Option Instr))}
    (hagree : List.Forall₂ EntryOfRow rows table) (hnodup : (rows.map MnemonicRow.name).Nodup)
    {row : MnemonicRow} (hrow : row ∈ rows) :
    ∃ build, table.lookup row.name = some build ∧ ReadsRow row build := by
  induction hagree with
  | nil => exact nomatch hrow
  | @cons r entry rows table hentry hagree ih =>
    obtain ⟨hname, hreads⟩ := hentry
    obtain ⟨hnew, hnodup⟩ := List.nodup_cons.mp hnodup
    rw [← Prod.mk.eta (p := entry), List.lookup_cons, hname]
    rcases List.mem_cons.mp hrow with rfl | hrow
    · exact ⟨entry.2, by rw [beq_self_eq_true], hreads⟩
    · have hne : row.name ≠ r.name := fun h => hnew (h ▸ List.mem_map_of_mem hrow)
      rw [beq_eq_false_iff_ne.mpr hne]
      exact ih hnodup hrow

/-- A name of the assembler's table is the name of a row. -/
theorem exists_row_of_lookup {key : List Byte} {build : List Operand → Option Instr}
    (h : mnemonicTable.lookup key = some build) : ∃ row ∈ mnemonicRows, key = row.name := by
  have hnames : mnemonicRows.map MnemonicRow.name = mnemonicTable.map Prod.fst := rfl
  have hkey : key ∈ mnemonicTable.map Prod.fst :=
    List.mem_map_of_mem (mem_of_lookup_eq_some _ _ _ h)
  rw [← hnames] at hkey
  obtain ⟨row, hrow, hname⟩ := List.mem_map.mp hkey
  exact ⟨row, hrow, hname.symm⟩

/-! ### The line of a mnemonic -/

theorem raw_not_mnemonic : ∀ row ∈ mnemonicRows, (ascii ".raw").map upCase ≠ row.name := by
  decide

/-- R69, R72: beside `.raw`, a line is its mnemonic's operation or a rejection of its operands. -/
theorem buildLine_of_lookup {first : List Byte} {build : List Operand → Option Instr}
    (hraw : first ≠ ascii ".raw") (hfound : mnemonicTable.lookup (first.map upCase) = some build)
    (ops : List Operand) :
    buildLine first ops = (build ops).elim (.error .wrongOperands) fun i => .ok (.instr i) := by
  unfold buildLine
  rw [if_neg hraw, hfound]
  cases hbuild : build ops with
  | some i => simp only [hbuild, Option.elim_some]
  | none => simp only [hbuild, Option.elim_none]

theorem buildLine_of_unknown {first : List Byte} (hraw : first ≠ ascii ".raw")
    (hunknown : ∀ row ∈ mnemonicRows, first.map upCase ≠ row.name) (ops : List Operand) :
    buildLine first ops = .error .unknownMnemonic := by
  rcases buildLine_cases first ops with ⟨h, -⟩ | ⟨h, -⟩ | ⟨-, -, hline⟩ | ⟨-, build, hfound, -⟩
  · exact absurd h hraw
  · exact absurd h hraw
  · exact hline
  · obtain ⟨row, hrow, hname⟩ := exists_row_of_lookup hfound
    exact absurd hname (hunknown row hrow)

/-- Settles O56: a row's name finds the shape that reads the row, and no other name finds any. -/
theorem assembledOperandsStandInOrder : Obligations.AssembledOperandsStandInOrder := by
  refine ⟨fun first ops row hrow hname => ?_, fun first ops hraw hunknown =>
    buildLine_of_unknown hraw hunknown ops⟩
  have hraw : first ≠ ascii ".raw" := by
    rintro rfl
    exact raw_not_mnemonic row hrow hname
  obtain ⟨build, hfound, hreads⟩ := lookup_of_mem_row tables_agree mnemonicRows_names_nodup hrow
  have hline := buildLine_of_lookup hraw (hname ▸ hfound) ops
  refine ⟨fun hfit => ?_, fun hfit => ?_⟩
  · obtain ⟨i, hbuild, hencode⟩ := hreads.exists_of_fit hfit
    exact ⟨i, by rw [hline, hbuild, Option.elim_some], hencode⟩
  · rw [hline, hreads.none_of_not_fit hfit, Option.elim_none]

/-! ### `.raw` -/

/-- R72: `.raw` reads five `int` operands and nothing else. -/
theorem buildRaw_eq_none {ops : List Operand}
    (h : ¬ ((intOperands ops).length = 5 ∧ (textOperands ops).length = 0)) : buildRaw ops = none := by
  unfold buildRaw
  split
  · exact absurd ⟨rfl, rfl⟩ h
  · rfl

/-- Settles O57: the five words go to their inputs unchanged, and other operands are rejected. -/
theorem rawDirectivePresentsItsCommand : Obligations.RawDirectivePresentsItsCommand := by
  refine ⟨fun cmd a b c d => rfl, fun ops hops => ?_⟩
  simp only [buildLine, if_true, buildRaw_eq_none hops]

end Sys2Proof.Assembler
end

section
/-!
PROOFS about the radix_converter (40_radix_converter.md). The sum of R102 is the number with the text's digits,
and each encoder gives the digits of its word (`Nat.digits`), so the decoders and the encoders are inverse to
each other as far as the 32 bits, the sign and the leading zeros allow.
-/

namespace Sys2Proof.Machine

open Sys2Proof.Safety

/-! ### Digits of a base -/

/-- The digits of a base as the claims about the three decoders name them (R100). -/
abbrev Base.DigitChar : Base → Byte → Prop
  | .two => bitChar
  | .ten => decChar
  | .sixteen => upperHexChar

theorem one_lt_baseValue (b : Base) : 1 < baseValue b := by
  cases b <;> decide

theorem baseValue_le_sixteen (b : Base) : baseValue b ≤ 16 := by
  cases b <;> decide

theorem isDigit_iff_digitChar (b : Base) (c : Byte) : isDigit b c = true ↔ b.DigitChar c := by
  cases b <;> revert c <;> decide

/-- R100: the digits of a base are the hexadecimal digits of a value below the base. -/
theorem digitChar_iff_digitNat_lt (b : Base) (c : Byte) :
    b.DigitChar c ↔ upperHexChar c ∧ digitNat c < baseValue b := by
  cases b <;> revert c <;> decide

theorem digitChar_zero (b : Base) : b.DigitChar 0x30 := by
  cases b <;> decide

theorem setWidth_digitValue {c : Byte} (h : upperHexChar c) :
    (digitValue c).setWidth 32 = BitVec.ofNat 32 (digitNat c) := by
  revert c
  decide

/-- The character of a digit value (R106, R107). -/
def digitByte (d : Nat) : Byte := if d ≤ 9 then BitVec.ofNat 8 (0x30 + d) else BitVec.ofNat 8 (0x37 + d)

theorem binChar_eq_digitByte (m : Word) : binChar (m.getLsbD 0) = digitByte (m.toNat % 2) := by
  rw [BitVec.getLsbD, Nat.testBit_zero]
  rcases Nat.mod_two_eq_zero_or_one m.toNat with h | h <;> rw [h] <;> rfl

theorem hexChar_eq_digitByte (v : BitVec 4) : hexChar v = digitByte v.toNat := by
  revert v
  decide

theorem digitNat_digitByte {d : Nat} (h : d < 16) : digitNat (digitByte d) = d := by
  revert d
  decide

theorem upperHexChar_digitByte {d : Nat} (h : d < 16) : upperHexChar (digitByte d) := by
  revert d
  decide

theorem digitByte_digitNat {c : Byte} (h : upperHexChar c) : digitByte (digitNat c) = c := by
  revert c
  decide

theorem digitNat_eq_zero_iff {c : Byte} (h : upperHexChar c) : digitNat c = 0 ↔ c = 0x30 := by
  revert c
  decide

theorem digitChar_digitByte {b : Base} {d : Nat} (h : d < baseValue b) : b.DigitChar (digitByte d) := by
  have hd : d < 16 := h.trans_le (baseValue_le_sixteen b)
  rw [digitChar_iff_digitNat_lt, digitNat_digitByte hd]
  exact ⟨upperHexChar_digitByte hd, h⟩

/-! ### The value of a numeral -/

/-- The values of a text's digits, the last one first, as the loop of R102 meets them. -/
def digitValues (txt : List Byte) : List Nat := txt.reverse.map digitNat

theorem digitValues_cons (c : Byte) (txt : List Byte) :
    digitValues (c :: txt) = digitValues txt ++ [digitNat c] := by
  simp [digitValues]

theorem length_digitValues (txt : List Byte) : (digitValues txt).length = txt.length := by
  simp [digitValues]

/-- R102: the sum over the positions is the number with these digits. -/
theorem numeralSum_eq_ofDigits (base : Nat) (txt : List Byte) :
    numeralSum base txt = Nat.ofDigits base (digitValues txt) := by
  induction txt with
  | nil => rfl
  | cons c txt ih =>
    rw [digitValues_cons, Nat.ofDigits_append, Nat.ofDigits_singleton, length_digitValues, numeralSum, ih]
    ring

/-- The loop of R102 adds the value of the characters it has left, at the weight it has reached. -/
theorem posvalFrom_eq (base : Nat) {txt : List Byte} (h : ∀ c ∈ txt, upperHexChar c) (acc w : Word) :
    posvalFrom (BitVec.ofNat 32 base) txt acc w =
      acc + w * BitVec.ofNat 32 (Nat.ofDigits base (txt.map digitNat)) := by
  induction txt generalizing acc w with
  | nil => simp [posvalFrom]
  | cons c txt ih =>
    obtain ⟨hc, htxt⟩ := List.forall_mem_cons.mp h
    rw [posvalFrom, ih htxt, setWidth_digitValue hc, List.map_cons, Nat.ofDigits_cons, BitVec.ofNat_add,
      BitVec.ofNat_mul]
    ring

theorem posval_eq_numeralSum {b : Base} {txt : List Byte} (h : ∀ c ∈ txt, b.DigitChar c) :
    posval b txt = BitVec.ofNat 32 (numeralSum (baseValue b) txt) := by
  have hhex : ∀ c ∈ txt.reverse, upperHexChar c := fun c hc =>
    ((digitChar_iff_digitNat_lt b c).mp (h c (List.mem_reverse.mp hc))).1
  rw [posval, posvalFrom_eq _ hhex, numeralSum_eq_ofDigits, digitValues]
  simp

/-! ### The decoders -/

/-- R101: the domain check of a decoder. -/
theorem numeralOk_iff_numeral (b : Base) (txt : List Byte) :
    numeralOk Config.tinMax b txt = true ↔ numeral b.DigitChar txt := by
  simp [numeralOk, isDigit_iff_digitChar, and_assoc]

theorem decodeNumeral_of_numeral {b : Base} {txt : List Byte} (h : numeral b.DigitChar txt) (s : State) :
    decodeNumeral b txt s =
      .next (okEnd s (BitVec.ofNat 32 (numeralSum (baseValue b) txt)) false []) := by
  have hok := (numeralOk_iff_numeral b txt).mpr h
  obtain ⟨-, -, hdigits⟩ := h
  rw [decodeNumeral, if_pos hok, posval_eq_numeralSum hdigits, endOk, State.finish_eq]
  rfl

theorem decodeNumeral_of_not_numeral {b : Base} {txt : List Byte} (h : ¬ numeral b.DigitChar txt)
    (s : State) : decodeNumeral b txt s = .next (domainEnd s) := by
  rw [decodeNumeral, if_neg (mt (numeralOk_iff_numeral b txt).mp h)]
  rfl

/-- R103 to R105: what the decoder of a base does with every text. -/
theorem decodeNumeral_spec (b : Base) (txt : List Byte) (s : State) :
    (numeral b.DigitChar txt → decodeNumeral b txt s =
      .next (okEnd s (BitVec.ofNat 32 (numeralSum (baseValue b) txt)) false [])) ∧
    (¬ numeral b.DigitChar txt → decodeNumeral b txt s = .next (domainEnd s)) :=
  ⟨(decodeNumeral_of_numeral · s), (decodeNumeral_of_not_numeral · s)⟩

/-- R61, R63: an operation's own word with its operands on its inputs decodes to it. -/
theorem decode_of_cmd {c : Command} {i : Instr} (hcmd : c.cmd = (opcode i).setWidth 32)
    (htakes : takesFrom i c) : decode c = .ok i := by
  refine (decodeIsExactlyTheOpcodeMap c i).mpr ⟨?_, htakes⟩
  rw [hcmd, toNat_eq_code_iff]
  exact (fields_of_setWidth _).symm

/-- Settles O27: the decoder of base ten. -/
theorem ddecGivesDecimalValue : Obligations.DdecGivesDecimalValue :=
  ⟨fun _ hcmd => decode_of_cmd hcmd rfl, decodeNumeral_spec .ten⟩

/-- Settles O28: the decoder of base two. -/
theorem dbinGivesBinaryValue : Obligations.DbinGivesBinaryValue :=
  ⟨fun _ hcmd => decode_of_cmd hcmd rfl, decodeNumeral_spec .two⟩

/-- Settles O29: the decoder of base sixteen. -/
theorem dhexGivesHexadecimalValue : Obligations.DhexGivesHexadecimalValue :=
  ⟨fun _ hcmd => decode_of_cmd hcmd rfl, decodeNumeral_spec .sixteen⟩

/-! ### Leading zeros of a numeral -/

theorem numeralSum_replicate_zero_append (base z : Nat) (txt : List Byte) :
    numeralSum base (List.replicate z 0x30 ++ txt) = numeralSum base txt := by
  induction z with
  | zero => rfl
  | succ z ih =>
    have hzero : digitNat 0x30 = 0 := rfl
    rw [List.replicate_succ, List.cons_append, numeralSum, ih, hzero, Nat.zero_mul, Nat.zero_add]

/-- R109: leading zeros that fit the text input do not change whether a text is a numeral. -/
theorem numeral_replicate_zero_append_iff (b : Base) {z : Nat} {txt : List Byte} (hne : txt ≠ [])
    (hfits : z + txt.length ≤ Config.tinMax) :
    numeral b.DigitChar (List.replicate z 0x30 ++ txt) ↔ numeral b.DigitChar txt := by
  have hlen : txt.length ≤ Config.tinMax := by omega
  have hdigits : (∀ c ∈ List.replicate z 0x30 ++ txt, b.DigitChar c) ↔ ∀ c ∈ txt, b.DigitChar c := by
    rw [List.forall_mem_append]
    exact and_iff_right fun c hc => List.eq_of_mem_replicate hc ▸ digitChar_zero b
  simp only [numeral, hdigits, List.length_append, List.length_replicate, hfits, hlen, ne_eq, hne,
    List.append_eq_nil_iff, and_false]

theorem decodeNumeral_replicate_zero_append (b : Base) {z : Nat} {txt : List Byte} (hne : txt ≠ [])
    (hfits : z + txt.length ≤ Config.tinMax) (s : State) :
    decodeNumeral b (List.replicate z 0x30 ++ txt) s = decodeNumeral b txt s := by
  have hiff := numeral_replicate_zero_append_iff b hne hfits
  by_cases h : numeral b.DigitChar txt
  · rw [decodeNumeral_of_numeral h, decodeNumeral_of_numeral (hiff.mpr h),
      numeralSum_replicate_zero_append]
  · rw [decodeNumeral_of_not_numeral h, decodeNumeral_of_not_numeral (mt hiff.mp h)]

/-- Settles O33: the zeros change neither the check of R101 nor the sum of R102. -/
theorem leadingZerosAreIgnored : Obligations.LeadingZerosAreIgnored := fun _ _ s hne hfits =>
  ⟨decodeNumeral_replicate_zero_append .ten hne hfits s,
    decodeNumeral_replicate_zero_append .two hne hfits s,
    decodeNumeral_replicate_zero_append .sixteen hne hfits s⟩

/-! ### The text of a number without leading zeros -/

/-- The digits of a number as characters, most significant first; no digit for 0. -/
def digitChars (b : Base) (n : Nat) : List Byte := (Nat.digits (baseValue b) n).reverse.map digitByte

/-- The numeral of a number without leading zeros (R106, R107). -/
def shortestNumeral (b : Base) (n : Nat) : List Byte := if n = 0 then [0x30] else digitChars b n

@[simp] theorem digitChars_zero (b : Base) : digitChars b 0 = [] := by
  simp [digitChars]

theorem shortestNumeral_zero (b : Base) : shortestNumeral b 0 = [0x30] := rfl

theorem shortestNumeral_of_ne_zero (b : Base) {n : Nat} (h : n ≠ 0) :
    shortestNumeral b n = digitChars b n :=
  if_neg h

/-- Dividing by the base takes the last digit off, which then stands before what follows. -/
theorem digitChars_append (b : Base) {n : Nat} (h : n ≠ 0) (txt : List Byte) :
    digitChars b n ++ txt =
      digitChars b (n / baseValue b) ++ digitByte (n % baseValue b) :: txt := by
  simp [digitChars, Nat.digits_def' (one_lt_baseValue b) (Nat.pos_of_ne_zero h)]

theorem length_digitChars (b : Base) (n : Nat) :
    (digitChars b n).length = (Nat.digits (baseValue b) n).length := by
  simp [digitChars]

/-- Each character of the text stands for its digit again. -/
theorem digitValues_digitChars (b : Base) (n : Nat) :
    digitValues (digitChars b n) = Nat.digits (baseValue b) n := by
  have hdigit : ∀ d ∈ Nat.digits (baseValue b) n, digitNat (digitByte d) = d := fun d hd =>
    digitNat_digitByte ((Nat.digits_lt_base (one_lt_baseValue b) hd).trans_le (baseValue_le_sixteen b))
  rw [digitValues, digitChars, ← List.map_reverse, List.reverse_reverse, List.map_map]
  exact (List.map_congr_left hdigit).trans (List.map_id _)

theorem numeralSum_shortestNumeral (b : Base) (n : Nat) :
    numeralSum (baseValue b) (shortestNumeral b n) = n := by
  by_cases h : n = 0
  · subst h
    rfl
  · rw [shortestNumeral_of_ne_zero b h, numeralSum_eq_ofDigits, digitValues_digitChars,
      Nat.ofDigits_digits]

theorem digitChar_of_mem_shortestNumeral {b : Base} {n : Nat} :
    ∀ c ∈ shortestNumeral b n, b.DigitChar c := by
  by_cases h : n = 0
  · subst h
    simpa [shortestNumeral_zero] using digitChar_zero b
  · rw [shortestNumeral_of_ne_zero b h, digitChars, List.forall_mem_map]
    exact fun d hd => digitChar_digitByte
      (Nat.digits_lt_base (one_lt_baseValue b) (List.mem_reverse.mp hd))

/-- The first character is the digit that `Nat.digits` puts last, which is not 0 for any number. -/
theorem head?_ne_zero_iff {txt : List Byte} (h : ∀ c ∈ txt, upperHexChar c) :
    txt.head? ≠ some 0x30 ↔ ∀ hne : digitValues txt ≠ [], (digitValues txt).getLast hne ≠ 0 := by
  cases txt with
  | nil => simp [digitValues]
  | cons c txt =>
    have hc := digitNat_eq_zero_iff (List.forall_mem_cons.mp h).1
    simp [digitValues_cons, hc]

theorem minimalNumeral_shortestNumeral (b : Base) (n : Nat) : minimalNumeral (shortestNumeral b n) := by
  by_cases h : n = 0
  · subst h
    exact .inl rfl
  · have hhex : ∀ c ∈ shortestNumeral b n, upperHexChar c := fun c hc =>
      ((digitChar_iff_digitNat_lt b c).mp (digitChar_of_mem_shortestNumeral c hc)).1
    have hne : Nat.digits (baseValue b) n ≠ [] := Nat.digits_ne_nil_iff_ne_zero.mpr h
    rw [shortestNumeral_of_ne_zero b h] at hhex ⊢
    refine .inr ⟨by simpa [digitChars] using hne, (head?_ne_zero_iff hhex).mpr ?_⟩
    simpa only [digitValues_digitChars] using fun _ => Nat.getLast_digit_ne_zero (baseValue b) h

/-- The digits of a text's value make the text again, if it has no leading zero. -/
theorem digitChars_numeralSum {b : Base} {txt : List Byte} (hdigits : ∀ c ∈ txt, b.DigitChar c)
    (hhead : txt.head? ≠ some 0x30) : digitChars b (numeralSum (baseValue b) txt) = txt := by
  have hdigit : ∀ c ∈ txt, upperHexChar c ∧ digitNat c < baseValue b := fun c hc =>
    (digitChar_iff_digitNat_lt b c).mp (hdigits c hc)
  have hlt : ∀ d ∈ digitValues txt, d < baseValue b := by
    simpa [digitValues] using fun c hc => (hdigit c hc).2
  have hlast := (head?_ne_zero_iff fun c hc => (hdigit c hc).1).mp hhead
  have hchars : ∀ c ∈ txt, digitByte (digitNat c) = c := fun c hc => digitByte_digitNat (hdigit c hc).1
  rw [numeralSum_eq_ofDigits, digitChars, Nat.digits_ofDigits _ (one_lt_baseValue b) _ hlt hlast,
    digitValues, ← List.map_reverse, List.reverse_reverse, List.map_map]
  exact (List.map_congr_left hchars).trans (List.map_id _)

/-- R109: a numeral without leading zeros is the one text that the encoder gives for its value. -/
theorem shortestNumeral_numeralSum {b : Base} {txt : List Byte} (hdigits : ∀ c ∈ txt, b.DigitChar c)
    (hmin : minimalNumeral txt) : shortestNumeral b (numeralSum (baseValue b) txt) = txt := by
  rcases hmin with rfl | ⟨hne, hhead⟩
  · rfl
  · have htxt := digitChars_numeralSum hdigits hhead
    have hsum : numeralSum (baseValue b) txt ≠ 0 := fun hzero => hne (by
      rw [← htxt, hzero, digitChars_zero])
    rw [shortestNumeral_of_ne_zero b hsum, htxt]

theorem length_shortestNumeral_le {b : Base} {n k : Nat} (hk : 1 ≤ k) (h : n < baseValue b ^ k) :
    (shortestNumeral b n).length ≤ k := by
  by_cases hn : n = 0
  · subst hn
    exact hk
  · rw [shortestNumeral_of_ne_zero b hn, length_digitChars]
    exact (Nat.digits_length_le_iff (one_lt_baseValue b) n).mpr h

/-- R106: the number of binary digits. -/
theorem length_shortestNumeral_two (n : Nat) :
    (shortestNumeral .two n).length = if n = 0 then 1 else Nat.log2 n + 1 := by
  split
  case isTrue h => rw [h, shortestNumeral_zero, List.length_singleton]
  case isFalse h =>
    rw [shortestNumeral_of_ne_zero .two h, length_digitChars, Nat.log2_eq_log_two]
    exact Nat.length_digits 2 n (by decide) h

/-! ### The encoders -/

/-- R14: a word is not negative exactly if its value is below 2^31. -/
theorem toInt_nonneg_iff_toNat_lt (w : Word) : 0 ≤ w.toInt ↔ w.toNat < 2 ^ 31 := by
  rw [BitVec.toInt_eq_toNat_cond]
  split <;> omega

theorem toNat_eq_zero_iff (w : Word) : w.toNat = 0 ↔ w = 0 := BitVec.toNat_inj (y := 0)

/-- R107: the loop's test, for a word that is not negative. -/
theorem one_le_sint_iff {w : Word} (h : w.toNat < 2 ^ 31) : 1 ≤ sint w ↔ w.toNat ≠ 0 := by
  rw [sint, BitVec.toInt_eq_toNat_of_lt (by omega)]
  omega

theorem toNat_nibbleView_zero (w : Word) : (nibbleView w 0).toNat = w.toNat % 16 := by
  simp [nibbleView]

/-- R106: the loop prepends the digits of its word. -/
theorem binLoop_eq_digitChars (fuel : Nat) (m : Word) (txt : List Byte) (h : m.toNat < 2 ^ fuel) :
    binLoop fuel m txt = digitChars .two m.toNat ++ txt := by
  induction fuel generalizing m txt with
  | zero =>
    have hzero : m.toNat = 0 := by omega
    rw [hzero, digitChars_zero]
    rfl
  | succ fuel ih =>
    have hshift : (m >>> 1).toNat = m.toNat / 2 := by
      rw [BitVec.toNat_ushiftRight, Nat.shiftRight_eq_div_pow]
    unfold binLoop
    split
    case isTrue hm =>
      rw [ih _ _ (by omega), hshift, binChar_eq_digitByte,
        digitChars_append .two (mt (toNat_eq_zero_iff m).mp hm)]
      rfl
    case isFalse hm =>
      rw [(toNat_eq_zero_iff m).mpr (not_ne_iff.mp hm), digitChars_zero, List.nil_append]

/-- R107: the loop prepends the digits of its word, for one that is not negative. -/
theorem hexLoop_eq_digitChars (fuel : Nat) (m : Word) (txt : List Byte) (h : m.toNat < 16 ^ fuel)
    (hpos : m.toNat < 2 ^ 31) : hexLoop fuel m txt = digitChars .sixteen m.toNat ++ txt := by
  induction fuel generalizing m txt with
  | zero =>
    have hzero : m.toNat = 0 := by omega
    rw [hzero, digitChars_zero]
    rfl
  | succ fuel ih =>
    have hshift : (m >>> 4).toNat = m.toNat / 16 := by
      rw [BitVec.toNat_ushiftRight, Nat.shiftRight_eq_div_pow]
    unfold hexLoop
    split
    case isTrue hm =>
      rw [ih _ _ (by omega) (by omega), hshift, hexChar_eq_digitByte, toNat_nibbleView_zero,
        digitChars_append .sixteen ((one_le_sint_iff hpos).mp hm)]
      rfl
    case isFalse hm =>
      rw [not_ne_iff.mp (mt (one_le_sint_iff hpos).mpr hm), digitChars_zero, List.nil_append]

theorem binNumeral_eq_shortestNumeral (n : Word) : binNumeral n = shortestNumeral .two n.toNat := by
  simp only [binNumeral, shortestNumeral, toNat_eq_zero_iff,
    binLoop_eq_digitChars 32 n [] n.isLt, List.append_nil]

theorem hexNumeral_eq_shortestNumeral {n : Word} (h : 0 ≤ n.toInt) :
    hexNumeral n = shortestNumeral .sixteen n.toNat := by
  have hpos := (toInt_nonneg_iff_toNat_lt n).mp h
  simp only [hexNumeral, shortestNumeral, toNat_eq_zero_iff,
    hexLoop_eq_digitChars 8 n [] n.isLt hpos, List.append_nil]

/-- What R106 and R107 say of an encoder: it gives the numeral without leading zeros of a word that is not
negative, and ends DOMAIN for a negative one. -/
structure EncodesIn (b : Base) (op : Word → State → Host.Outcome State Fault Refusal) : Prop where
  ofNonneg : ∀ (n : Word) (s : State), 0 ≤ n.toInt →
    op n s = .next (okEnd s 0 false (shortestNumeral b n.toNat))
  ofNeg : ∀ (n : Word) (s : State), n.toInt < 0 → op n s = .next (domainEnd s)

/-- The shape of both encoders: a domain check and the text of the word. -/
theorem encodesIn_of_text {b : Base} {text : Word → List Byte}
    (htext : ∀ n : Word, 0 ≤ n.toInt → text n = shortestNumeral b n.toNat) :
    EncodesIn b fun n s => if encodable n then endOk s (textResponse (text n)) else raiseDomain s where
  ofNonneg n s h := by
    rw [if_pos (encodable_iff.mpr h), htext n h, endOk, State.finish_eq]
    rfl
  ofNeg n s h := by
    rw [if_neg (mt encodable_iff.mp (not_le.mpr h))]
    rfl

theorem execEbin_encodesIn : EncodesIn .two execEbin :=
  encodesIn_of_text fun n _ => binNumeral_eq_shortestNumeral n

theorem execEhex_encodesIn : EncodesIn .sixteen execEhex :=
  encodesIn_of_text fun _ h => hexNumeral_eq_shortestNumeral h

/-- Settles O30: the text is the word's numeral without leading zeros, which is as long as R106 says. -/
theorem ebinGivesMinimalBinary : Obligations.EbinGivesMinimalBinary := by
  refine ⟨fun _ hcmd => decode_of_cmd hcmd rfl, fun n s => ⟨fun h => ?_, execEbin_encodesIn.ofNeg n s⟩⟩
  have hlength := length_shortestNumeral_two n.toNat
  have hbound := (toInt_nonneg_iff_toNat_lt n).mp h
  refine ⟨_, execEbin_encodesIn.ofNonneg n s h, numeralSum_shortestNumeral .two _,
    digitChar_of_mem_shortestNumeral (b := .two), minimalNumeral_shortestNumeral _ _, ?_,
    length_shortestNumeral_le (by decide) hbound⟩
  simpa only [toNat_eq_zero_iff] using hlength

/-- Settles O31: the text is the word's numeral without leading zeros, and 8 digits hold 31 bits. -/
theorem ehexGivesMinimalHexadecimal : Obligations.EhexGivesMinimalHexadecimal := by
  refine ⟨fun _ hcmd => decode_of_cmd hcmd rfl, fun n s => ⟨fun h => ?_, execEhex_encodesIn.ofNeg n s⟩⟩
  have hbound : n.toNat < 16 ^ 8 := n.isLt
  exact ⟨_, execEhex_encodesIn.ofNonneg n s h, numeralSum_shortestNumeral .sixteen _,
    digitChar_of_mem_shortestNumeral (b := .sixteen), minimalNumeral_shortestNumeral _ _,
    length_shortestNumeral_le (by decide) hbound⟩

/-! ### Both directions -/

/-- R10: the text input holds what an encoder gives. -/
theorem numeral_shortestNumeral (b : Base) {n : Nat} (h : n < 2 ^ 31) :
    numeral b.DigitChar (shortestNumeral b n) := by
  have hpow : 2 ^ 31 ≤ baseValue b ^ 31 := Nat.pow_le_pow_left (one_lt_baseValue b) 31
  have hlength : (shortestNumeral b n).length ≤ 31 :=
    length_shortestNumeral_le (by decide) (h.trans_le hpow)
  have hmax := tinMax_ge
  refine ⟨?_, by omega, digitChar_of_mem_shortestNumeral⟩
  rcases minimalNumeral_shortestNumeral b n with hzero | ⟨hne, -⟩
  · exact hzero ▸ List.cons_ne_nil _ _
  · exact hne

/-- R108: what an encoder gave is decoded to the word it was given. -/
theorem EncodesIn.decodeNumeral_eq {b : Base} {op : Word → State → Host.Outcome State Fault Refusal}
    (hop : EncodesIn b op) {n : Word} (h : 0 ≤ n.toInt) (s : State) :
    ∃ t, op n s = .next t ∧ decodeNumeral b t.rTxt t = .next (okEnd t n false []) := by
  refine ⟨_, hop.ofNonneg n s h, ?_⟩
  have hnumeral := numeral_shortestNumeral b ((toInt_nonneg_iff_toNat_lt n).mp h)
  refine (decodeNumeral_of_numeral hnumeral _).trans ?_
  rw [numeralSum_shortestNumeral, BitVec.ofNat_toNat, BitVec.setWidth_eq]

/-- Settles O32: R108 holds in the bases of both encoders. -/
theorem encodeThenDecodeRoundTrips : Obligations.EncodeThenDecodeRoundTrips := fun _ s h =>
  ⟨execEbin_encodesIn.decodeNumeral_eq h s, execEhex_encodesIn.decodeNumeral_eq h s⟩

/-- An encoder gives a text exactly if the text is the numeral of a word that is not negative. -/
theorem EncodesIn.eq_okEnd_iff {b : Base} {op : Word → State → Host.Outcome State Fault Refusal}
    (hop : EncodesIn b op) (n : Word) (s : State) (txt : List Byte) :
    op n s = .next (okEnd s 0 false txt) ↔ n.toNat < 2 ^ 31 ∧ shortestNumeral b n.toNat = txt := by
  rw [← toInt_nonneg_iff_toNat_lt]
  rcases lt_or_ge n.toInt 0 with h | h
  · simp [hop.ofNeg n s h, domainEnd, okEnd, h]
  · simp [hop.ofNonneg n s h, okEnd, h]

/-- R109: an encoder gives a decoded text back exactly if it has no leading zeros and a value below 2^31. -/
theorem EncodesIn.decoded_eq_okEnd_iff {b : Base}
    {op : Word → State → Host.Outcome State Fault Refusal} (hop : EncodesIn b op) {txt : List Byte}
    {s t : State} (hnumeral : numeral b.DigitChar txt) (hdecode : decodeNumeral b txt s = .next t) :
    op t.rRes t = .next (okEnd t 0 false txt) ↔
      minimalNumeral txt ∧ numeralSum (baseValue b) txt ≤ 2 ^ 31 - 1 := by
  have hres : t.rRes = BitVec.ofNat 32 (numeralSum (baseValue b) txt) := by
    rw [← Host.Outcome.next.inj ((decodeNumeral_of_numeral hnumeral s).symm.trans hdecode)]
    rfl
  obtain ⟨-, -, hdigits⟩ := hnumeral
  rw [hop.eq_okEnd_iff]
  constructor
  · rintro ⟨hlt, htxt⟩
    have hsum : numeralSum (baseValue b) txt = t.rRes.toNat := by
      rw [← htxt, numeralSum_shortestNumeral]
    exact ⟨htxt ▸ minimalNumeral_shortestNumeral b _, by omega⟩
  · rintro ⟨hmin, hle⟩
    have hsum : t.rRes.toNat = numeralSum (baseValue b) txt := by
      rw [hres, BitVec.toNat_ofNat, Nat.mod_eq_of_lt (by omega)]
    rw [hsum]
    exact ⟨by omega, shortestNumeral_numeralSum hdigits hmin⟩

/-- Settles O34: R109's last sentence holds in the bases of both encoders. -/
theorem decodeThenEncodeGivesMinimalTextBack : Obligations.DecodeThenEncodeGivesMinimalTextBack :=
  ⟨fun _ _ _ => execEbin_encodesIn.decoded_eq_okEnd_iff,
    fun _ _ _ => execEhex_encodesIn.decoded_eq_okEnd_iff⟩

end Sys2Proof.Machine
end

section
/-!
PROOFS about the bit_packer (41_bit_packer.md). Operands inside their domain are not negative, so their signed
values are their unsigned ones. The results of SETBYTE and XOR and BITRANGE's shift form are compared with
their rules bit by bit, those of GETNIB, PACK and POW2 and BITRANGE's value as numbers.
-/

namespace Sys2Proof.Machine

open Sys2Proof.Safety

/-! ### The ends of a command, as the claims write them -/

theorem endOk_wordResponse (s : State) (v : Word) :
    endOk s (wordResponse v) = .next (okEnd s v false []) := by
  rw [endOk, State.finish_eq]
  rfl

theorem endOk_flagResponse (s : State) (f : Bool) :
    endOk s (flagResponse f) = .next (okEnd s 0 f []) := by
  rw [endOk, State.finish_eq]
  rfl

theorem raiseDomain_eq_domainEnd (s : State) : raiseDomain s = .next (domainEnd s) := rfl

/-! ### Index operands -/

/-- R14: a word that is not negative has one value, signed and unsigned. -/
theorem toInt_eq_toNat_of_nonneg {w : Word} (h : 0 ≤ w.toInt) : w.toInt = w.toNat := by
  have hlt := (toInt_nonneg_iff_toNat_lt w).mp h
  exact BitVec.toInt_eq_toNat_of_lt (by omega)

theorem indexUpTo_eq_toNat {hi : Int} {w : Word} (hnonneg : 0 ≤ w.toInt) (hle : w.toInt ≤ hi) :
    indexUpTo hi w = some w.toNat := by
  have hval := toInt_eq_toNat_of_nonneg hnonneg
  exact indexUpTo_eq_some.mpr ⟨hval, hval ▸ hle⟩

/-! ### SETBYTE -/

theorem getLsbD_lowByteMask (i : Nat) : (0x000000FF : Word).getLsbD i = decide (i < 8) :=
  Nat.testBit_two_pow_sub_one 8 i

/-- R121: bit `i` of the result comes from the low byte of B inside byte `k`, and from A outside it. -/
theorem getLsbD_replaceByte (word byteValue : Word) {k i : Nat} (hi : i < 32) :
    (replaceByte word byteValue k).getLsbD i =
      if 8 * k ≤ i ∧ i < 8 * k + 8 then byteValue.getLsbD (i - 8 * k) else word.getLsbD i := by
  rw [replaceByte, BitVec.getLsbD_or, BitVec.getLsbD_and, BitVec.getLsbD_not, BitVec.getLsbD_shiftLeft,
    BitVec.getLsbD_shiftLeft, getLsbD_lowByteMask]
  by_cases hin : 8 * k ≤ i ∧ i < 8 * k + 8
  · have hge : ¬ i < 8 * k := by omega
    have hlt : i - 8 * k < 8 := by omega
    have hword : i - 8 * k < 32 := by omega
    simp [trunc8, hin, hi, hge, hlt, hword]
  · have hout : i < 8 * k ∨ ¬ i - 8 * k < 8 := by omega
    rcases hout with h | h <;> simp [trunc8, hin, hi, h]

theorem byteView_replaceByte (word byteValue : Word) {j k : Nat} (hj : j < 4) :
    byteView (replaceByte word byteValue k) j =
      if j = k then trunc8 byteValue else byteView word j := by
  refine BitVec.eq_of_getLsbD_eq fun i hi => ?_
  rw [byteView, BitVec.getLsbD_extractLsb', getLsbD_replaceByte word byteValue (by omega)]
  by_cases hjk : j = k
  · subst hjk
    simp [trunc8, hi]
  · have hout : ¬ (8 * k ≤ 8 * j + i ∧ 8 * j + i < 8 * k + 8) := by omega
    simp [byteView, hjk, hout]

theorem execSetbyte_of_index (word byteValue : Word) {index : Word} (s : State)
    (hnonneg : 0 ≤ index.toInt) (hle : index.toInt ≤ 3) :
    execSetbyte word byteValue index s =
      .next (okEnd s (replaceByte word byteValue index.toNat) false []) := by
  rw [execSetbyte, byteIndex, indexUpTo_eq_toNat hnonneg hle]
  exact endOk_wordResponse s _

theorem execSetbyte_of_domain (word byteValue : Word) {index : Word} (s : State)
    (h : index.toInt < 0 ∨ 3 < index.toInt) :
    execSetbyte word byteValue index s = .next (domainEnd s) := by
  rw [execSetbyte, byteIndex, indexUpTo_eq_none.mpr h]
  exact raiseDomain_eq_domainEnd s

/-- Settles O35: the masked word and the shifted byte meet in no bit, so each byte is one of the two. -/
theorem setbyteReplacesOneByte : Obligations.SetbyteReplacesOneByte := by
  refine ⟨fun _ hcmd => decode_of_cmd hcmd ⟨rfl, rfl, rfl⟩, fun word byteValue index s =>
    ⟨fun hnonneg hle => ?_, execSetbyte_of_domain word byteValue s⟩⟩
  refine ⟨_, execSetbyte_of_index word byteValue s hnonneg hle, fun k hk => ?_⟩
  simp only [toInt_eq_toNat_of_nonneg hnonneg, Nat.cast_inj]
  exact byteView_replaceByte word byteValue hk

/-! ### GETNIB -/

/-- R45, R122: a nibble is a hexadecimal digit of the word's value. -/
theorem setWidth_nibbleView (word : Word) (k : Nat) :
    (nibbleView word k).setWidth 32 = BitVec.ofNat 32 (word.toNat / 16 ^ k % 16) := by
  have hnibble : (nibbleView word k).toNat = word.toNat / 16 ^ k % 16 := by
    rw [nibbleView, BitVec.extractLsb'_toNat, Nat.shiftRight_eq_div_pow, Nat.pow_mul]
  rw [← hnibble, BitVec.ofNat_toNat]

theorem execGetnib_of_index (word : Word) {index : Word} (s : State)
    (hnonneg : 0 ≤ index.toInt) (hle : index.toInt ≤ 7) :
    execGetnib word index s =
      .next (okEnd s (BitVec.ofNat 32 (word.toNat / 16 ^ index.toNat % 16)) false []) := by
  rw [execGetnib, nibbleIndex, indexUpTo_eq_toNat hnonneg hle, ← setWidth_nibbleView]
  exact endOk_wordResponse s _

theorem execGetnib_of_domain (word : Word) {index : Word} (s : State)
    (h : index.toInt < 0 ∨ 7 < index.toInt) : execGetnib word index s = .next (domainEnd s) := by
  rw [execGetnib, nibbleIndex, indexUpTo_eq_none.mpr h]
  exact raiseDomain_eq_domainEnd s

/-- Settles O36: the nibble at the index is the hexadecimal digit there. -/
theorem getnibExtractsOneNibble : Obligations.GetnibExtractsOneNibble :=
  ⟨fun _ hcmd => decode_of_cmd hcmd ⟨rfl, rfl⟩, fun word _ s =>
    ⟨execGetnib_of_index word s, execGetnib_of_domain word s⟩⟩

/-! ### PACK -/

theorem toNat_trunc8 (w : Word) : (trunc8 w).toNat = w.toNat % 256 := by
  simp [trunc8]

/-- A byte set below a bit string adds its value to the string's, one byte up. -/
theorem toNat_append_byte {w : Nat} (x : BitVec w) (b : Byte) :
    (x ++ b).toNat = x.toNat * 256 + b.toNat := by
  rw [BitVec.toNat_append, ← Nat.shiftLeft_add_eq_or_of_lt b.isLt, Nat.shiftLeft_eq]

/-- R123: the value of the four bytes in order. -/
theorem append_trunc8_eq (b3 b2 b1 b0 : Word) :
    trunc8 b3 ++ trunc8 b2 ++ trunc8 b1 ++ trunc8 b0 =
      BitVec.ofNat 32 (b3.toNat % 256 * 2 ^ 24 + b2.toNat % 256 * 2 ^ 16 +
        b1.toNat % 256 * 2 ^ 8 + b0.toNat % 256) := by
  apply BitVec.eq_of_toNat_eq
  simp only [toNat_append_byte, toNat_trunc8, BitVec.toNat_ofNat]
  omega

/-- Settles O37: the four bytes in order are the word with this value. -/
theorem packConcatenatesLowBytes : Obligations.PackConcatenatesLowBytes := by
  refine ⟨fun _ hcmd => decode_of_cmd hcmd ⟨rfl, rfl, rfl, rfl⟩, fun b3 b2 b1 b0 s => ?_⟩
  rw [← append_trunc8_eq]
  exact endOk_wordResponse s _

/-! ### BITRANGE -/

/-- R124: the field is shifted up to the sign bit and back, and bits past it copy its top bit. -/
theorem signedField_eq_sshiftRight (num : Word) {start len : Nat} (hpos : 1 ≤ len)
    (hfits : start + len ≤ 32) :
    signedField num start len = (num <<< (32 - start - len)).sshiftRight (32 - len) := by
  refine BitVec.eq_of_getLsbD_eq fun i hi => ?_
  rw [signedField, BitVec.getLsbD_signExtend, BitVec.getLsbD_sshiftRight]
  by_cases hin : i < len
  · have hbit : 32 - len + i - (32 - start - len) = start + i := by omega
    have hshift : ¬ 32 - len + i < 32 - start - len := by omega
    have hsum : 32 - len + i < 32 := by omega
    have hfield : start + i < 32 := by omega
    simp [hi, hin, hbit, hshift, hsum, hi.not_ge, BitVec.getLsbD_eq_getElem hfield]
  · have hsign : ¬ 32 - len + i < 32 := by omega
    simp [hi, hin, hsign, BitVec.msb_extractLsb', Nat.lt_of_succ_le hpos, hfits, Nat.sub_sub]

/-- R124: the signed value of the field as a `len`-bit number. -/
theorem toInt_signedField (num : Word) {start len : Nat} (hle : len ≤ 32) :
    (signedField num start len).toInt =
      Int.bmod ((num.toNat / 2 ^ start % 2 ^ len : Nat) : Int) (2 ^ len) := by
  rw [signedField, BitVec.toInt_signExtend_of_le hle, BitVec.toInt_eq_toNat_bmod,
    BitVec.extractLsb'_toNat, Nat.shiftRight_eq_div_pow]

theorem execBitrange_of_field (num : Word) {start len : Word} (s : State) (hpos : 1 ≤ len.toInt)
    (hlen : len.toInt ≤ 31) (hstart : 0 ≤ start.toInt) (hfits : start.toInt + len.toInt ≤ 32) :
    execBitrange num start len s =
      .next (okEnd s (signedField num start.toNat len.toNat) false []) := by
  have hstartVal := toInt_eq_toNat_of_nonneg hstart
  have hlenVal := toInt_eq_toNat_of_nonneg (w := len) (by omega)
  have hfield : bitField start len = some (start.toNat, len.toNat) :=
    bitField_eq_some.mpr ⟨hstartVal, hlenVal, by omega, by omega, by omega⟩
  rw [execBitrange, hfield]
  exact endOk_wordResponse s _

theorem execBitrange_of_domain (num : Word) {start len : Word} (s : State)
    (h : len.toInt < 1 ∨ 31 < len.toInt ∨ start.toInt < 0 ∨ 32 < start.toInt + len.toInt) :
    execBitrange num start len s = .next (domainEnd s) := by
  rw [execBitrange, bitField_eq_none.mpr h]
  exact raiseDomain_eq_domainEnd s

/-- Settles O38: the sign-extended field is the shift form of R124 and has the field's signed value. -/
theorem bitrangeSignExtendsTheField : Obligations.BitrangeSignExtendsTheField := by
  refine ⟨fun _ hcmd => decode_of_cmd hcmd ⟨rfl, rfl, rfl⟩, fun num start len s =>
    ⟨fun hpos hlen hstart hfits => ?_, execBitrange_of_domain num s⟩⟩
  have hstartVal := toInt_eq_toNat_of_nonneg hstart
  have hlenVal := toInt_eq_toNat_of_nonneg (w := len) (by omega)
  exact ⟨_, execBitrange_of_field num s hpos hlen hstart hfits,
    signedField_eq_sshiftRight num (by omega) (by omega), toInt_signedField num (by omega)⟩

/-! ### XOR -/

/-- R125: exclusive-or by AND, OR and NOT. -/
theorem and_not_or_not_and_eq_xor (a b : Word) : (a &&& ~~~b) ||| (~~~a &&& b) = a ^^^ b := by
  ext i hi
  simp only [BitVec.getElem_or, BitVec.getElem_and, BitVec.getElem_not, BitVec.getElem_xor]
  cases a[i] <;> cases b[i] <;> rfl

/-- Settles O39: the construction of R125 is exclusive-or in each bit. -/
theorem xorIsExclusiveOr : Obligations.XorIsExclusiveOr := by
  refine ⟨fun _ hcmd => decode_of_cmd hcmd ⟨rfl, rfl⟩, fun a b s => ?_⟩
  rw [← and_not_or_not_and_eq_xor]
  exact endOk_wordResponse s _

/-! ### POW2 -/

theorem powerOfTwoFlag_eq_true_iff (n : Word) :
    powerOfTwoFlag n = true ↔ 1 ≤ n.toInt ∧ n &&& (n - 1) = 0 := by
  simp [powerOfTwoFlag]

/-- R14: a word is positive exactly if its value is between 0 and 2^31. -/
theorem one_le_toInt_iff (n : Word) : 1 ≤ n.toInt ↔ 0 < n.toNat ∧ n.toNat < 2 ^ 31 := by
  rw [BitVec.toInt_eq_toNat_cond]
  split <;> omega

/-- R126: the test of `n &&& (n - 1)` singles out the powers of two among the words that are not 0. -/
theorem and_sub_one_eq_zero_iff {n : Word} (h : 0 < n.toNat) :
    n &&& (n - 1) = 0 ↔ ∃ j, n.toNat = 2 ^ j := by
  have hsub : (n - 1).toNat = n.toNat - 1 := BitVec.toNat_sub_of_le (BitVec.le_def.mpr h)
  rw [← toNat_eq_zero_iff, BitVec.toNat_and, hsub]
  exact Nat.and_sub_one_eq_zero_iff_isPowerOfTwo h.ne'

theorem powerOfTwoFlag_iff_exists_pow (n : Word) :
    powerOfTwoFlag n = true ↔ ∃ j < 31, n.toNat = 2 ^ j := by
  rw [powerOfTwoFlag_eq_true_iff, one_le_toInt_iff]
  constructor
  · rintro ⟨⟨hpos, hlt⟩, hand⟩
    obtain ⟨j, hj⟩ := (and_sub_one_eq_zero_iff hpos).mp hand
    exact ⟨j, (Nat.pow_lt_pow_iff_right one_lt_two).mp (hj ▸ hlt), hj⟩
  · rintro ⟨j, hlt, hj⟩
    have hpos : 0 < n.toNat := hj ▸ Nat.two_pow_pos j
    exact ⟨⟨hpos, hj ▸ Nat.pow_lt_pow_right one_lt_two hlt⟩, (and_sub_one_eq_zero_iff hpos).mpr ⟨j, hj⟩⟩

/-- Settles O40: the flag is R126's test, and the test finds the powers of two below 2^31. -/
theorem powTwoTestsPositivePowers : Obligations.PowTwoTestsPositivePowers :=
  ⟨fun _ hcmd => decode_of_cmd hcmd rfl, fun n s =>
    ⟨_, endOk_flagResponse s _, powerOfTwoFlag_eq_true_iff n, powerOfTwoFlag_iff_exists_pow n⟩⟩

end Sys2Proof.Machine
end

section
/-!
PROOFS about the bitvector_register (42_bitvector_register.md). The three mutators apply one operation on bits
to each bit of BV and of the singleton mask, and the two queries answer opposite flags. The counts are compared
with cardinalities, and the scan of BSIZE stops at the highest set bit, whose index is the logarithm of BV.
-/

namespace Sys2Proof.Machine

open Sys2Proof.Safety

/-! ### The ends of a command, as the claims write them -/

theorem endOk_nullResponse (s : State) : endOk s nullResponse = .next (okEnd s 0 false []) :=
  endOk_wordResponse s 0

theorem endOk_textResponse (s : State) (txt : List Byte) :
    endOk s (textResponse txt) = .next (okEnd s 0 false txt) := by
  rw [endOk, State.finish_eq]
  rfl

/-! ### BSET, BCLR and BTGL -/

/-- R140: the mask of an index holds that bit alone. -/
theorem getLsbD_singletonMask (i : Nat) {j : Nat} (hj : j < 32) :
    (singletonMask i).getLsbD j = decide (j = i) := by
  rw [show singletonMask i = BitVec.twoPow 32 i from rfl, BitVec.getLsbD_twoPow]
  by_cases h : j = i
  · subst h
    simp [hj]
  · simp [h, Ne.symm h]

theorem mutate_of_index (change : Word → Word → Word) {idx : Word} (s : State)
    (hnonneg : 0 ≤ idx.toInt) (hle : idx.toInt ≤ 31) :
    mutate change idx s =
      .next (okEnd { s with bv := change s.bv (singletonMask idx.toNat) } 0 false []) := by
  rw [mutate, mutatorIndex, indexUpTo_eq_toNat hnonneg hle]
  exact endOk_nullResponse _

theorem mutate_of_domain (change : Word → Word → Word) {idx : Word} (s : State)
    (h : idx.toInt < 0 ∨ 31 < idx.toInt) : mutate change idx s = .next (domainEnd s) := by
  rw [mutate, mutatorIndex, indexUpTo_eq_none.mpr h]
  exact raiseDomain_eq_domainEnd s

/-- R141 to R143: a mutator whose change works bit by bit combines each bit of BV with whether it is the one
at the index. -/
theorem mutate_bitwise {change : Word → Word → Word} {bitChange : Bool → Bool → Bool}
    (hchange : ∀ (v m : Word) (j : Nat), j < 32 →
      (change v m).getLsbD j = bitChange (v.getLsbD j) (m.getLsbD j)) (idx : Word) (s : State) :
    (0 ≤ idx.toInt → idx.toInt ≤ 31 →
      ∃ v, mutate change idx s = .next (okEnd { s with bv := v } 0 false []) ∧
        ∀ j < 32, v.getLsbD j = bitChange (s.bv.getLsbD j) (decide (j = idx.toNat))) ∧
    (idx.toInt < 0 ∨ 31 < idx.toInt → mutate change idx s = .next (domainEnd s)) := by
  refine ⟨fun hnonneg hle => ⟨_, mutate_of_index change s hnonneg hle, fun j hj => ?_⟩,
    mutate_of_domain change s⟩
  rw [hchange _ _ j hj, getLsbD_singletonMask _ hj]

/-- Settles O41: OR with the mask sets the bit at the index. -/
theorem bsetSetsOneBit : Obligations.BsetSetsOneBit :=
  ⟨fun _ hcmd => decode_of_cmd hcmd rfl, mutate_bitwise fun _ _ _ _ => BitVec.getLsbD_or⟩

theorem getLsbD_and_not (v m : Word) {j : Nat} (hj : j < 32) :
    (v &&& ~~~m).getLsbD j = (v.getLsbD j && !m.getLsbD j) := by
  rw [BitVec.getLsbD_and, BitVec.getLsbD_not, decide_eq_true hj, Bool.true_and]

/-- Settles O42: AND with the inverted mask clears the bit at the index. -/
theorem bclrClearsOneBit : Obligations.BclrClearsOneBit :=
  ⟨fun _ hcmd => decode_of_cmd hcmd rfl,
    mutate_bitwise (bitChange := fun v m => v && !m) fun v m _ => getLsbD_and_not v m⟩

/-- Settles O43: exclusive-or with the mask inverts the bit at the index. -/
theorem btglInvertsOneBit : Obligations.BtglInvertsOneBit :=
  ⟨fun _ hcmd => decode_of_cmd hcmd rfl, mutate_bitwise fun _ _ _ _ => BitVec.getLsbD_xor⟩

/-! ### BISSET and BISCLR -/

theorem query_of_nonneg (flag : Word → Nat → Bool) {idx : Word} (s : State) (h : 0 ≤ idx.toInt) :
    query flag idx s = .next (okEnd s 0 (flag s.bv idx.toNat) []) := by
  rw [query, queryIndex_eq_some.mpr (toInt_eq_toNat_of_nonneg h)]
  exact endOk_flagResponse s _

theorem query_of_neg (flag : Word → Nat → Bool) {idx : Word} (s : State) (h : idx.toInt < 0) :
    query flag idx s = .next (domainEnd s) := by
  rw [query, queryIndex_eq_none.mpr h]
  exact raiseDomain_eq_domainEnd s

theorem isSetFlag_of_lt (bv : Word) {i : Nat} (h : i < 32) : isSetFlag bv i = bv.getLsbD i :=
  if_neg h.not_ge

theorem isSetFlag_of_ge (bv : Word) {i : Nat} (h : 32 ≤ i) : isSetFlag bv i = false := if_pos h

/-- R144, R145: at every index that is not negative one query answers the opposite of the other. -/
theorem isClearFlag_eq_not (bv : Word) (i : Nat) : isClearFlag bv i = !isSetFlag bv i := by
  unfold isClearFlag isSetFlag
  split <;> rfl

theorem isClearFlag_of_lt (bv : Word) {i : Nat} (h : i < 32) : isClearFlag bv i = !bv.getLsbD i := by
  rw [isClearFlag_eq_not, isSetFlag_of_lt bv h]

theorem isClearFlag_of_ge (bv : Word) {i : Nat} (h : 32 ≤ i) : isClearFlag bv i = true := by
  rw [isClearFlag_eq_not, isSetFlag_of_ge bv h]
  rfl

/-- R144, R145: a query whose flag is a test of the bit inside the register and fixed beyond it. -/
theorem query_bitTest {flag : Word → Nat → Bool} {test : Bool → Bool} {beyond : Bool}
    (hinside : ∀ (bv : Word) (i : Nat), i < 32 → flag bv i = test (bv.getLsbD i))
    (hbeyond : ∀ (bv : Word) (i : Nat), 32 ≤ i → flag bv i = beyond) (idx : Word) (s : State) :
    (0 ≤ idx.toInt → idx.toInt < 32 →
      query flag idx s = .next (okEnd s 0 (test (s.bv.getLsbD idx.toNat)) [])) ∧
    (32 ≤ idx.toInt → query flag idx s = .next (okEnd s 0 beyond [])) ∧
    (idx.toInt < 0 → query flag idx s = .next (domainEnd s)) := by
  refine ⟨fun hnonneg hlt => ?_, fun hge => ?_, query_of_neg flag s⟩
  · have hval := toInt_eq_toNat_of_nonneg hnonneg
    rw [query_of_nonneg flag s hnonneg, hinside _ _ (by omega)]
  · have hnonneg : 0 ≤ idx.toInt := by omega
    have hval := toInt_eq_toNat_of_nonneg hnonneg
    rw [query_of_nonneg flag s hnonneg, hbeyond _ _ (by omega)]

/-- Settles O44: the flag is the bit itself, and false beyond the register. -/
theorem bissetTestsForOne : Obligations.BissetTestsForOne :=
  ⟨fun _ hcmd => decode_of_cmd hcmd rfl,
    query_bitTest (test := id) (fun bv _ => isSetFlag_of_lt bv) fun bv _ => isSetFlag_of_ge bv⟩

/-- Settles O45: the flag is the complement of the bit, and true beyond the register. -/
theorem bisclrTestsForZero : Obligations.BisclrTestsForZero :=
  ⟨fun _ hcmd => decode_of_cmd hcmd rfl,
    query_bitTest (test := not) (fun bv _ => isClearFlag_of_lt bv) fun bv _ => isClearFlag_of_ge bv⟩

/-- Settles O52: both queries check the index alike, and their flags are opposite. -/
theorem bitQueriesComplementInsideOnly : Obligations.BitQueriesComplementInsideOnly := by
  intro idx s
  rcases lt_or_ge idx.toInt 0 with hneg | hnonneg
  · exact ⟨_, _, query_of_neg isSetFlag s hneg, query_of_neg isClearFlag s hneg,
      fun hnonneg => absurd hneg hnonneg.not_gt, fun hge => by omega, fun _ => ⟨rfl, rfl⟩⟩
  · refine ⟨_, _, query_of_nonneg isSetFlag s hnonneg, query_of_nonneg isClearFlag s hnonneg,
      fun _ _ => ?_, fun hge => ?_, fun hneg => absurd hneg hnonneg.not_gt⟩
    · simp [okEnd, isClearFlag_eq_not]
    · have hval := toInt_eq_toNat_of_nonneg hnonneg
      exact ⟨isSetFlag_of_ge s.bv (by omega), isClearFlag_of_ge s.bv (by omega)⟩

/-! ### BSTR -/

theorem bitString_getElem? (w : Word) {j : Nat} (hj : j < 32) :
    (bitString w)[j]? = some (if w.getLsbD (31 - j) then 0x31 else 0x30) := by
  simp [bitString, binChar, hj]

theorem length_bitString (w : Word) : (bitString w).length = 32 := by
  simp [bitString]

/-- Settles O46: character `j` of the text is the digit of bit `31 - j`. -/
theorem bstrRendersEveryBit : Obligations.BstrRendersEveryBit :=
  ⟨fun _ hcmd => decode_of_cmd hcmd trivial, fun s =>
    ⟨_, endOk_textResponse s _, length_bitString s.bv, fun _ => bitString_getElem? s.bv⟩⟩

/-! ### BONES and BZEROS -/

/-- R15: the bits counted along the word's indices are a set of them. -/
theorem popcount_eq_card (w : Word) :
    popcount w = (Finset.univ.filter fun j : Fin 32 => w.getLsbD j = true).card := by
  rw [popcount, ← List.map_coe_finRange_eq_range, List.countP_map, ← List.toFinset_finRange,
    (List.nodup_finRange 32).card_eq_countP]
  simp [Function.comp_def]

theorem popcount_le (w : Word) : popcount w ≤ 32 :=
  List.countP_le_length.trans_eq List.length_range

/-- R148: the bits that are 0 are the other bits. -/
theorem sub_popcount_eq_card (w : Word) :
    32 - popcount w = (Finset.univ.filter fun j : Fin 32 => w.getLsbD j = false).card := by
  have hsum := Finset.card_filter_add_card_filter_not (s := Finset.univ)
    fun j : Fin 32 => w.getLsbD j = true
  simp only [Bool.not_eq_true, Finset.card_univ, Fintype.card_fin] at hsum
  rw [popcount_eq_card]
  omega

/-- Settles O47: the count of R15 is the cardinality of the set of bits that are 1. -/
theorem bonesCountsOnes : Obligations.BonesCountsOnes := by
  refine ⟨fun _ hcmd => decode_of_cmd hcmd trivial, fun s => ?_⟩
  rw [← popcount_eq_card]
  exact endOk_wordResponse s _

/-- Settles O48: what the count leaves of 32 is the cardinality of the set of bits that are 0. -/
theorem bzerosCountsZeros : Obligations.BzerosCountsZeros := by
  refine ⟨fun _ hcmd => decode_of_cmd hcmd trivial, fun s => ?_⟩
  rw [← sub_popcount_eq_card]
  exact endOk_wordResponse s _

/-- Settles O51: the second count is what the first leaves of 32. -/
theorem onesAndZerosSumToWidth : Obligations.OnesAndZerosSumToWidth := by
  refine fun s => ⟨_, _, endOk_wordResponse s _, endOk_wordResponse s _, ?_⟩
  have hle := popcount_le s.bv
  simp only [okEnd, BitVec.toNat_ofNat]
  omega

/-! ### BSIZE -/

/-- R149: the scan from bit `n` passes the bits that are 0 and stops at the highest that is 1. -/
theorem sizeFrom_of_highest {w : Word} {h n : Nat} (hpos : 1 ≤ h) (hle : h ≤ n)
    (hset : w.getLsbD h = true) (habove : ∀ j, h < j → j ≤ n → w.getLsbD j = false) :
    sizeFrom w n = h + 1 := by
  induction n with
  | zero => omega
  | succ n ih =>
    rcases hle.eq_or_lt with rfl | hlt
    · rw [sizeFrom, if_pos hset]
    · rw [sizeFrom, habove (n + 1) hlt le_rfl]
      exact ih (by omega) fun j hj hjn => habove j hj (by omega)

theorem sizeFrom_of_clear {w : Word} {n : Nat} (hclear : ∀ j, 1 ≤ j → j ≤ n → w.getLsbD j = false) :
    sizeFrom w n = 1 := by
  induction n with
  | zero => rfl
  | succ n ih =>
    rw [sizeFrom, hclear (n + 1) (by omega) le_rfl]
    exact ih fun j hj hjn => hclear j hj (by omega)

theorem execBsize_eq (s : State) {n : Nat} (h : sizeFrom s.bv 31 = n) :
    exec .bsize s = .next (okEnd s (BitVec.ofNat 32 n) false []) := by
  subst h
  exact endOk_wordResponse s _

/-- Settles O49: a scan from bit 31 finds the highest set bit above bit 0, or none. -/
theorem bsizeGivesMinimalWidth : Obligations.BsizeGivesMinimalWidth :=
  ⟨fun _ hcmd => decode_of_cmd hcmd trivial, fun s =>
    ⟨fun _ hpos hlt hset habove => execBsize_eq s (sizeFrom_of_highest hpos (Nat.le_of_lt_succ hlt) hset
      fun j hj hle => habove j hj (Nat.lt_succ_of_le hle)),
    fun hclear => execBsize_eq s (sizeFrom_of_clear fun j hj hle => hclear j hj (Nat.lt_succ_of_le hle))⟩⟩

/-- A word's bits at and above a power of two that bounds it are 0. -/
theorem getLsbD_eq_false_of_lt {w : Word} {n j : Nat} (hlt : w.toNat < 2 ^ n) (hj : n ≤ j) :
    w.getLsbD j = false :=
  Nat.testBit_lt_two_pow (hlt.trans_le (Nat.pow_le_pow_right two_pos hj))

/-- Settles O50: the logarithm of BV is the index of its highest set bit. -/
theorem bsizeIsLogarithmPlusOne : Obligations.BsizeIsLogarithmPlusOne := by
  intro s
  obtain ⟨-, hsize⟩ := bsizeGivesMinimalWidth
  obtain ⟨hhighest, hclear⟩ := hsize s
  split
  next hlt => exact hclear fun j hj _ => getLsbD_eq_false_of_lt (n := 1) hlt hj
  next hge =>
    have hne : s.bv.toNat ≠ 0 := by omega
    exact hhighest s.bv.toNat.log2 ((Nat.le_log2 hne).mpr (by omega)) ((Nat.log2_lt hne).mpr s.bv.isLt)
      (Nat.testBit_log2 hne) fun j hj _ => getLsbD_eq_false_of_lt Nat.lt_log2_self hj

end Sys2Proof.Machine
end

section
/-!
PROOFS about status and errors (60_exceptions.md). Every operation ends DOMAIN with R173's effect where
R172's table says so, and OK where it does not. With the illegal words this gives the status of every command
that is taken, and from it the fault that R178 presents and what R_ERR records over a run.
-/

namespace Sys2Proof.Machine

open Sys2Proof.Safety

/-! ### The table of R172 -/

/-- The operation ends DOMAIN, with R173's effect, where `bad` holds, and ends OK where it does not. -/
structure EndsDomainIff (op : State → Host.Outcome State Fault Refusal) (bad : Prop) : Prop where
  ofBad : bad → ∀ s, op s = .next (domainEnd s)
  ofGood : ¬ bad → ∀ s, ∃ t, op s = .next t ∧ t.rStatus = 0

/-- The last line of R172: an operation without a check never ends DOMAIN. -/
theorem endOk_endsDomainIff_false (r : State → Response) :
    EndsDomainIff (fun s => endOk s (r s)) False where
  ofBad := False.elim
  ofGood _ s := ⟨s.finish (r s), rfl, rfl⟩

theorem decodeNumeral_endsDomainIff (b : Base) (txt : List Byte) :
    EndsDomainIff (decodeNumeral b txt) (¬ numeral b.DigitChar txt) where
  ofBad h s := decodeNumeral_of_not_numeral h s
  ofGood h s := ⟨_, decodeNumeral_of_numeral (not_not.mp h) s, rfl⟩

theorem EncodesIn.endsDomainIff {b : Base} {op : Word → State → Host.Outcome State Fault Refusal}
    (hop : EncodesIn b op) (n : Word) : EndsDomainIff (op n) (n.toInt < 0) where
  ofBad h s := hop.ofNeg n s h
  ofGood h s := ⟨_, hop.ofNonneg n s (not_lt.mp h), rfl⟩

theorem execSetbyte_endsDomainIff (word byteValue index : Word) :
    EndsDomainIff (execSetbyte word byteValue index) (index.toInt < 0 ∨ 3 < index.toInt) where
  ofBad h s := execSetbyte_of_domain word byteValue s h
  ofGood h s := ⟨_, execSetbyte_of_index word byteValue s (by omega) (by omega), rfl⟩

theorem execGetnib_endsDomainIff (word index : Word) :
    EndsDomainIff (execGetnib word index) (index.toInt < 0 ∨ 7 < index.toInt) where
  ofBad h s := execGetnib_of_domain word s h
  ofGood h s := ⟨_, execGetnib_of_index word s (by omega) (by omega), rfl⟩

theorem execBitrange_endsDomainIff (num start len : Word) :
    EndsDomainIff (execBitrange num start len)
      (len.toInt < 1 ∨ 31 < len.toInt ∨ start.toInt < 0 ∨ 32 < start.toInt + len.toInt) where
  ofBad h s := execBitrange_of_domain num s h
  ofGood h s :=
    ⟨_, execBitrange_of_field num s (by omega) (by omega) (by omega) (by omega), rfl⟩

theorem mutate_endsDomainIff (change : Word → Word → Word) (idx : Word) :
    EndsDomainIff (mutate change idx) (idx.toInt < 0 ∨ 31 < idx.toInt) where
  ofBad h s := mutate_of_domain change s h
  ofGood h s := ⟨_, mutate_of_index change s (by omega) (by omega), rfl⟩

theorem query_endsDomainIff (flag : Word → Nat → Bool) (idx : Word) :
    EndsDomainIff (query flag idx) (idx.toInt < 0) where
  ofBad h s := query_of_neg flag s h
  ofGood h s := ⟨_, query_of_nonneg flag s (not_lt.mp h), rfl⟩

/-- R172, row by row. -/
theorem exec_endsDomainIff (i : Instr) : EndsDomainIff (exec i) (outOfDomain i) := by
  cases i with
  | ddec txt => exact decodeNumeral_endsDomainIff .ten txt
  | dbin txt => exact decodeNumeral_endsDomainIff .two txt
  | dhex txt => exact decodeNumeral_endsDomainIff .sixteen txt
  | ebin n => exact execEbin_encodesIn.endsDomainIff n
  | ehex n => exact execEhex_encodesIn.endsDomainIff n
  | setbyte word byteValue index => exact execSetbyte_endsDomainIff word byteValue index
  | getnib word index => exact execGetnib_endsDomainIff word index
  | bitrange num start len => exact execBitrange_endsDomainIff num start len
  | bset idx => exact mutate_endsDomainIff (fun bv m => bv ||| m) idx
  | bclr idx => exact mutate_endsDomainIff (fun bv m => bv &&& ~~~m) idx
  | btgl idx => exact mutate_endsDomainIff (fun bv m => bv ^^^ m) idx
  | bisset idx | bisclr idx => exact query_endsDomainIff _ idx
  | pack | xor | pow2 | bstr | bones | bzeros | bsize => exact endOk_endsDomainIff_false _

/-- Settles O13: the two ends of an operation carry different statuses. -/
theorem domainExactlyByTheTable : Obligations.DomainExactlyByTheTable := by
  intro i s
  obtain ⟨hbad, hgood⟩ := exec_endsDomainIff i
  by_cases hdomain : outOfDomain i
  · exact ⟨domainEnd s, hbad hdomain s, iff_of_true rfl hdomain, fun _ => rfl⟩
  · obtain ⟨t, hrun, hok⟩ := hgood hdomain s
    exact ⟨t, hrun, iff_of_false (by simp [hok]) hdomain, fun h => absurd h hdomain⟩

/-! ### The status of a command that is taken -/

theorem step_of_illegalWord {s : State} {c : Command} (hready : Ready s c)
    (hillegal : illegalWord c.cmd) : step s = .next (illegalEnd s).advance :=
  (illegalWordEndsIllegal s c hready).1 hillegal

theorem step_of_outOfDomain {s : State} {c : Command} {i : Instr} (hready : Ready s c)
    (hdecode : decode c = .ok i) (hdomain : outOfDomain i) :
    step s = .next (domainEnd s).advance := by
  rw [step_of_ready hready, runCommand_of_decode hdecode, (exec_endsDomainIff i).ofBad hdomain]
  rfl

theorem step_of_inDomain {s : State} {c : Command} {i : Instr} (hready : Ready s c)
    (hdecode : decode c = .ok i) (hdomain : ¬ outOfDomain i) :
    ∃ t, step s = .next t ∧ t.rStatus = 0 := by
  obtain ⟨t, hrun, hok⟩ := (exec_endsDomainIff i).ofGood hdomain s
  exact ⟨t.advance, by rw [step_of_ready hready, runCommand_of_decode hdecode, hrun]; rfl, hok⟩

/-- R174: the three ways in which a command ends. -/
theorem step_ready_cases {s : State} {c : Command} (hready : Ready s c) :
    (illegalWord c.cmd ∧ step s = .next (illegalEnd s).advance) ∨
    (∃ i, decode c = .ok i ∧ outOfDomain i ∧ step s = .next (domainEnd s).advance) ∨
    ∃ i t, decode c = .ok i ∧ ¬ outOfDomain i ∧ step s = .next t ∧ t.rStatus = 0 := by
  by_cases hillegal : illegalWord c.cmd
  · exact .inl ⟨hillegal, step_of_illegalWord hready hillegal⟩
  · obtain ⟨i, hdecode⟩ := (exists_decode_iff_legal c).mpr hillegal
    by_cases hdomain : outOfDomain i
    · exact .inr (.inl ⟨i, hdecode, hdomain, step_of_outOfDomain hready hdecode hdomain⟩)
    · obtain ⟨t, hstep, hok⟩ := step_of_inDomain hready hdecode hdomain
      exact .inr (.inr ⟨i, t, hdecode, hdomain, hstep, hok⟩)

/-- Settles O14: of the three ways in which a command ends, two leave a status other than 0. -/
theorem failedCommandHasNoOtherEffect : Obligations.FailedCommandHasNoOtherEffect := by
  intro s t c hready hstep hfailed
  rcases step_ready_cases hready with ⟨-, hs⟩ | ⟨_, -, -, hs⟩ | ⟨_, u, -, -, hs, hok⟩ <;>
    obtain rfl := Host.Outcome.next.inj (hs.symm.trans hstep)
  · exact .inl ⟨rfl, rfl⟩
  · exact .inr ⟨rfl, rfl⟩
  · exact absurd hok hfailed

/-- Settles O15: a command has one next state, and each of the three conditions gives that state's status. -/
theorem statusPriority : Obligations.StatusPriority := by
  intro s c hready
  obtain ⟨e, -, hstep⟩ := step_ready_endsProperly hready
  refine ⟨_, hstep, fun hillegal => ?_, fun i hdecode hdomain => ?_, fun i hdecode hdomain => ?_⟩
  · rw [Host.Outcome.next.inj (hstep.symm.trans (step_of_illegalWord hready hillegal))]
    rfl
  · rw [Host.Outcome.next.inj (hstep.symm.trans (step_of_outOfDomain hready hdecode hdomain))]
    rfl
  · obtain ⟨t, hnext, hok⟩ := step_of_inDomain hready hdecode hdomain
    rw [Host.Outcome.next.inj (hstep.symm.trans hnext), hok]

/-! ### Steps without a command -/

/-- Settles O11: the block takes an event only where one is presented. -/
theorem waitingChangesNothing : Obligations.WaitingChangesNothing := by
  intro s hpres
  simp only [step, takeEvent, hpres]

theorem step_of_reset {s : State} (hpres : s.presented = some .reset) :
    step s = .next s.applyReset.advance := by
  simp only [step, takeEvent, hpres]

/-- R192: before the first reset there is no step for a command. -/
theorem step_of_command_before_reset {s : State} {c : Command} (hreset : s.wasReset = false)
    (hpres : s.presented = some (.command c)) : step s = .refused .commandBeforeReset := by
  simp [step, takeEvent, takeCommand, hpres, hreset]

/-! ### The checked step -/

/-- R170: a command ends with one of three statuses, and its word and R172's table decide which. -/
theorem step_ready_status {s : State} {c : Command} (hready : Ready s c) :
    ∃ t st, step s = .next t ∧ t.rStatus = statusCode st ∧ (st = .illegal ↔ illegalWord c.cmd) ∧
      (st = .domain ↔ ∃ i, decode c = .ok i ∧ outOfDomain i) := by
  have hlegal {i : Instr} (h : decode c = .ok i) : ¬ illegalWord c.cmd :=
    (exists_decode_iff_legal c).mp ⟨i, h⟩
  rcases step_ready_cases hready with
    ⟨hillegal, hstep⟩ | ⟨i, hdecode, hdomain, hstep⟩ | ⟨i, t, hdecode, hdomain, hstep, hok⟩
  · exact ⟨_, .illegal, hstep, rfl, iff_of_true rfl hillegal,
      iff_of_false nofun fun ⟨_, hdecode, _⟩ => hlegal hdecode hillegal⟩
  · exact ⟨_, .domain, hstep, rfl, iff_of_false nofun (hlegal hdecode),
      iff_of_true rfl ⟨i, hdecode, hdomain⟩⟩
  · refine ⟨t, .ok, hstep, hok, iff_of_false nofun (hlegal hdecode), iff_of_false nofun ?_⟩
    rintro ⟨j, hj, hbad⟩
    obtain rfl := Except.ok.inj (hdecode.symm.trans hj)
    exact hdomain hbad

/-- The fault with which R178 presents a status. -/
def Status.fault : Status → Option Fault
  | .ok => none
  | .illegal => some .illegal
  | .domain => some .domain

theorem Status.fault_eq_illegal_iff {st : Status} : st.fault = some .illegal ↔ st = .illegal := by
  cases st <;> decide

theorem Status.fault_eq_domain_iff {st : Status} : st.fault = some .domain ↔ st = .domain := by
  cases st <;> decide

theorem statusFault_eq_fault {t : State} {st : Status} (h : t.rStatus = statusCode st) :
    statusFault t = st.fault := by
  rw [statusFault, h]
  cases st <;> rfl

section
variable {s t : State} {c : Command} {st : Status} (hpres : s.presented = some (.command c))
  (hstep : step s = .next t) (hst : t.rStatus = statusCode st)
include hpres hstep hst

theorem checkedStep_of_command : checkedStep s = st.fault.elim (.next t) .fault := by
  rw [← statusFault_eq_fault hst]
  cases hfault : statusFault t <;> simp only [checkedStep, hpres, hstep, hfault] <;> rfl

theorem checkedStep_eq_fault_iff (f : Fault) : checkedStep s = .fault f ↔ st.fault = some f := by
  rw [checkedStep_of_command hpres hstep hst]
  cases st.fault <;> simp

theorem checkedStep_eq_next_iff (u : State) :
    checkedStep s = .next u ↔ step s = .next u ∧ u.rStatus = 0 := by
  rw [checkedStep_of_command hpres hstep hst, hstep]
  cases st with
  | ok => exact ⟨fun h => ⟨h, Host.Outcome.next.inj h ▸ hst⟩, And.left⟩
  | illegal | domain =>
    exact iff_of_false nofun fun ⟨h, hok⟩ =>
      nomatch hst.symm.trans ((congrArg State.rStatus (Host.Outcome.next.inj h)).trans hok)

end

/-- Where the host presents no command, there is nothing to present as a fault. -/
theorem checkedStep_of_no_command {s : State} (h : ∀ c, s.presented ≠ some (.command c)) :
    checkedStep s = step s := by
  unfold checkedStep
  split
  next hpres _ => exact absurd hpres (h _)
  next => rfl

theorem checkedStep_of_refused {s : State} {r : Refusal} (h : step s = .refused r) :
    checkedStep s = .refused r := by
  unfold checkedStep
  split
  next hnext => exact nomatch h.symm.trans hnext
  next => exact h

/-- Settles O18: the fault is read off the command's status, and every other step is presented as it is. -/
theorem checkedStepFaultsOnFailedCommands : Obligations.CheckedStepFaultsOnFailedCommands := by
  refine ⟨fun s c hready => ?_, fun s hpres => ?_, fun s hpres => ?_, fun s c hreset hpres => ?_⟩
  · obtain ⟨t, st, hstep, hst, hillegal, hdomain⟩ := step_ready_status hready
    obtain ⟨-, hpres⟩ := hready
    have hfault := checkedStep_eq_fault_iff hpres hstep hst
    exact ⟨((hfault _).trans Status.fault_eq_illegal_iff).trans hillegal,
      ((hfault _).trans Status.fault_eq_domain_iff).trans hdomain,
      checkedStep_eq_next_iff hpres hstep hst⟩
  · have hstep := step_of_reset hpres
    exact ⟨_, (checkedStep_of_no_command (by simp [hpres])).trans hstep, hstep⟩
  · exact (checkedStep_of_no_command (by simp [hpres])).trans (waitingChangesNothing s hpres)
  · exact checkedStep_of_refused (step_of_command_before_reset hreset hpres)

/-! ### R_ERR over a run -/

/-- R175: the register holds nothing exactly if it held nothing and the status sets nothing. -/
theorem errAfter_eq_zero_iff (err : BitVec 2) (st : Status) :
    errAfter err st = 0 ↔ err = 0 ∧ st = .ok := by
  revert err
  cases st <;> decide

/-- R175: one command of a run. -/
theorem errFree_step_iff {s t : State} {c : Command} (hready : Ready s c) (hstep : step s = .next t) :
    errFree t ↔ errFree s ∧ t.rStatus = 0 := by
  obtain ⟨e, -, hs⟩ := step_ready_endsProperly hready
  obtain rfl := Host.Outcome.next.inj (hs.symm.trans hstep)
  exact (errAfter_eq_zero_iff s.rErr e.status).trans (and_congr_right' statusCode_eq_zero_iff.symm)

/-- The state after each of the next `n` steps has status OK. -/
def StepsEndOk (n : Nat) (s : State) : Prop :=
  ∀ m < n, ∀ u, runSteps (m + 1) s = .next u → u.rStatus = 0

theorem stepsEndOk_zero (s : State) : StepsEndOk 0 s := nofun

theorem stepsEndOk_succ_iff {s t : State} (hstep : step s = .next t) (n : Nat) :
    StepsEndOk (n + 1) s ↔ t.rStatus = 0 ∧ StepsEndOk n t := by
  simp only [StepsEndOk, Nat.forall_lt_succ_left, runSteps_succ_of_step hstep]
  simp [runSteps]

/-- R175: R_ERR is 0 after a part of a run exactly if it was 0 before it and each command ended OK. -/
theorem MidRun.errFree_iff {p : List Command} {s t : State} (n : Nat) (h : MidRun p s)
    (hk : s.k + n ≤ p.length) (hrun : runSteps n s = .next t) :
    errFree t ↔ errFree s ∧ StepsEndOk n s := by
  induction n generalizing s with
  | zero =>
    obtain rfl := Host.Outcome.next.inj hrun
    simp [stepsEndOk_zero]
  | succ n ih =>
    obtain ⟨u, hstep, hu, huk⟩ := h.step_next (by omega)
    rw [runSteps_succ_of_step hstep] at hrun
    rw [ih hu (by omega) hrun, errFree_step_iff (h.ready (by omega)) hstep,
      stepsEndOk_succ_iff hstep, and_assoc]

/-- Settles O26: R_ERR is 0 at reset, and a run takes a step per command. -/
theorem errFreeRunIffEveryCommandOk : Obligations.ErrFreeRunIffEveryCommandOk := by
  intro p t hrun
  rw [(midRun_loaded p).errFree_iff p.length (Nat.zero_add _).le hrun]
  exact and_iff_right rfl

end Sys2Proof.Machine
end

section
/-!
PROOFS about reset and hazards (70_reset_and_hazards.md). A reset event puts the block into the reset state,
whose BV is 0, and the queries of R194 answer accordingly. Every other event that can be taken completes, and a
query after a mutator reads the BV that the mutator wrote.
-/

namespace Sys2Proof.Machine

open Sys2Proof.Safety

/-! ### Completion -/

/-- Settles O12: an operation ends every state by its effect, and of what a step can be only the command
before the first reset has no next state. -/
theorem everyCommandCompletes : Obligations.EveryCommandCompletes := by
  refine ⟨fun i s => ?_, fun s => ?_⟩
  · obtain ⟨e, -, hexec⟩ := exec_endsProperly i
    exact ⟨s.endWith (e s.bv), hexec s⟩
  · rcases step_cases s with ⟨-, hwait⟩ | ⟨-, hreset⟩ | ⟨c, hpres, hready, -⟩ | ⟨c, hpres, hpower, hstop⟩
    · exact .inl ⟨s, hwait⟩
    · exact .inl ⟨s.applyReset.advance, hreset⟩
    · obtain ⟨e, -, hstep⟩ := step_ready_endsProperly ⟨hready, hpres⟩
      exact .inl ⟨(s.endWith e).advance, hstep⟩
    · exact .inr ⟨hpower, ⟨c, hpres⟩, hstop⟩

/-! ### A query after a mutator -/

/-- R144: inside the register BISSET answers the bit of the BV it meets. -/
theorem exec_bisset_inside {idx : Word} (t : State) (hnonneg : 0 ≤ idx.toInt) (hle : idx.toInt ≤ 31) :
    exec (.bisset idx) t = .next (okEnd t 0 (t.bv.getLsbD idx.toNat) []) := by
  obtain ⟨-, htest⟩ := bissetTestsForOne
  obtain ⟨hinside, -⟩ := htest idx t
  exact hinside hnonneg (by omega)

/-- R52, R195: BISSET right after an operation that changes each bit of BV by whether it is the one at the index
answers the changed bit. -/
theorem bisset_after_mutator {i : Instr} {idx : Word} {s : State} {b : Bool} (bitChange : Bool → Bool → Bool)
    (hnonneg : 0 ≤ idx.toInt) (hle : idx.toInt ≤ 31)
    (hmutate : ∃ v, exec i s = .next (okEnd { s with bv := v } 0 false []) ∧
      ∀ j < 32, v.getLsbD j = bitChange (s.bv.getLsbD j) (decide (j = idx.toNat)))
    (hbit : bitChange (s.bv.getLsbD idx.toNat) true = b) :
    ∃ t u, exec i s = .next t ∧ exec (.bisset idx) t = .next u ∧ u.rFlag = b := by
  obtain ⟨v, hrun, hbits⟩ := hmutate
  have hval := toInt_eq_toNat_of_nonneg hnonneg
  have hflag : v.getLsbD idx.toNat = b := by rw [hbits _ (by omega), decide_eq_true rfl, hbit]
  exact ⟨_, _, hrun, exec_bisset_inside _ hnonneg hle, hflag⟩

/-- Settles O53: the bit at the index is the one that each mutator sets, clears or inverts. -/
theorem queryAfterMutatorSeesTheBit : Obligations.QueryAfterMutatorSeesTheBit := by
  intro idx s hnonneg hle
  obtain ⟨-, hbset⟩ := bsetSetsOneBit
  obtain ⟨-, hbclr⟩ := bclrClearsOneBit
  obtain ⟨-, hbtgl⟩ := btglInvertsOneBit
  obtain ⟨hset, -⟩ := hbset idx s
  obtain ⟨hclear, -⟩ := hbclr idx s
  obtain ⟨htoggle, -⟩ := hbtgl idx s
  exact ⟨bisset_after_mutator or hnonneg hle (hset hnonneg hle) (Bool.or_true _),
    bisset_after_mutator (fun bit here => bit && !here) hnonneg hle (hclear hnonneg hle) (Bool.and_false _),
    bisset_after_mutator xor hnonneg hle (htoggle hnonneg hle) (Bool.xor_true _)⟩

/-! ### The queries of R194 while BV is 0 -/

theorem bitString_zero : bitString 0 = List.replicate 32 0x30 := by
  simp [bitString, binChar]

section
variable {t : State} (hbv : t.bv = 0)
include hbv

theorem exec_bstr_of_bv_zero :
    exec .bstr t = .next (okEnd t 0 false (List.replicate 32 0x30)) := by
  have hrun : exec .bstr t = .next (okEnd t 0 false (bitString t.bv)) := endOk_textResponse t _
  rw [hrun, hbv, bitString_zero]

/-- R147: the set of bits that are 1 is empty. -/
theorem exec_bones_of_bv_zero : exec .bones t = .next (okEnd t 0 false []) := by
  obtain ⟨-, hcount⟩ := bonesCountsOnes
  rw [hcount t]
  simp [hbv]

/-- R148: the set of bits that are 0 holds all of them. -/
theorem exec_bzeros_of_bv_zero : exec .bzeros t = .next (okEnd t 32 false []) := by
  obtain ⟨-, hcount⟩ := bzerosCountsZeros
  rw [hcount t]
  simp [hbv]

/-- R149: no bit above bit 0 is set. -/
theorem exec_bsize_of_bv_zero : exec .bsize t = .next (okEnd t 1 false []) := by
  obtain ⟨-, hsize⟩ := bsizeGivesMinimalWidth
  obtain ⟨-, hclear⟩ := hsize t
  exact hclear fun _ _ _ => by simp [hbv]

end

/-! ### Reset -/

/-- Settles O7: the reset state with the list and the index of the host has R194's values, and its BV is 0. -/
theorem resetSetsResetValues : Obligations.ResetSetsResetValues := by
  intro s hpres
  have hbv : s.applyReset.advance.bv = 0 := rfl
  exact ⟨s.applyReset.advance, step_of_reset hpres, hbv, rfl, rfl, rfl, rfl, rfl, rfl,
    exec_bstr_of_bv_zero hbv, exec_bones_of_bv_zero hbv, exec_bzeros_of_bv_zero hbv,
    exec_bsize_of_bv_zero hbv⟩

/-- Settles O8: a reset keeps the host's list and index, and the step moves the index past the event. -/
theorem resetIsOneEventOfTheHostList : Obligations.ResetIsOneEventOfTheHostList :=
  fun _ hpres => step_of_reset hpres

/-- Settles O9: R194's table, element by element. -/
theorem resetStateHoldsResetValues : Obligations.ResetStateHoldsResetValues :=
  ⟨rfl, rfl, rfl, rfl, rfl, rfl, rfl⟩

/-- Settles O10: a command is taken only once the block has been reset. -/
theorem commandBeforeFirstResetIsRefused : Obligations.CommandBeforeFirstResetIsRefused :=
  fun _ _ hreset hpres => step_of_command_before_reset hreset hpres

/-- Settles O23: the reset state is the one in which a run of no events starts. -/
theorem resetHasResponseOk : Obligations.ResetHasResponseOk :=
  ⟨responseOk_loaded [], Nat.zero_le 0⟩

end Sys2Proof.Machine
end
